-- ==== Sys2Proof/Word.lean ====
section
/-! DEFINITION. The word and the character of the machine (`00_scope.md` R6, `10_state.md` R25, R26). -/

namespace Sys2Proof

/-- A word: 16 bits, bit 0 the least significant (R6). A memory cell, a register, a stack entry and the
program counter are words (R11, R13, R16, R32). -/
abbrev Word := BitVec 16

/-- A character of the output or the input stream, `IO_CHAR_BITS` = 8 bits (R5, R25, R26), and one half of a
memory cell as the image stores it (R33). -/
abbrev Byte := BitVec 8

end Sys2Proof
end

