-- ==== Sys2Proof/Config.lean ====
section
/-! DEFINITION. The parameters of the hardware (`00_scope.md` R5). The fixed ones are constants; the two that
R5 marks `OPEN` are the fields of `Config`, which a machine holds as plain data (log 3). The spec leaves no value
open, so there is no free value here. -/

namespace Sys2Proof

/-- `ADDRESS_SPACE`: the number of memory cells (R5, R30). -/
abbrev addressSpace : Nat := 32768

/-- `VALUE_SPACE`: the modulus of ISA values (R5). -/
abbrev valueSpace : Nat := 32768

/-- `REG_BASE`: the raw operand value of register 0 (R5). -/
abbrev regBase : Nat := 32768

/-- `REG_TOP`: the raw operand value of register 7 (R5). -/
abbrev regTop : Nat := 32775

/-- `MASK15` (R5, R86). -/
abbrev mask15 : Word := 0x7FFF#16

/-- The parameters that R5 marks `OPEN`. `stackDepth` is `STACK_DEPTH`, `none` for unbounded; `hasIn` is
`HAS_IN`. -/
structure Config where
  stackDepth : Option Nat
  hasIn : Bool
  deriving DecidableEq, Repr

/-- The default values of R5: an unbounded stack, and IN present. -/
def Config.default : Config := { stackDepth := none, hasIn := true }

end Sys2Proof
end

