-- ==== Sys2Proof/Machine/Flags.lean ====
section
/-! DEFINITION. The machine has no flags, condition codes or predicate registers and no instruction records a carry or
an overflow (`10_state.md` R21). What other machines keep in flags is here a word in a general register: the truth value
that EQ and GT write (`42_compare.md`) and the condition that JT and JF test (`43_control.md`). -/

namespace Sys2Proof.Machine

/-- A truth value as a word: 1 or 0 (R71, R72). -/
def truthWord (p : Bool) : Word := if p then 1#16 else 0#16

/-- The condition of JT: the whole 16-bit word is not 0 (R75). -/
def isTrueWord (w : Word) : Bool := decide (w ≠ 0#16)

end Sys2Proof.Machine
end

