-- ==== Sys2Proof/Machine/Alu.lean ====
section
/-! DEFINITION. The formulas of the comparisons (`42_compare.md` R71, R72) and of the arithmetic and bitwise
instructions (`44_arithmetic_logic.md` R81 to R86), applied as written to 16-bit words (R88). -/

namespace Sys2Proof.Machine

/-- EQ (R71). -/
def eqWord (b c : Word) : Word := truthWord (decide (b = c))

/-- GT, unsigned (R72). -/
def gtWord (b c : Word) : Word := truthWord (decide (c.toNat < b.toNat))

/-- ADD: the natural sum, reduced modulo 32768 (R81). -/
def addWord (b c : Word) : Word := BitVec.ofNat 16 ((b.toNat + c.toNat) % valueSpace)

/-- MULT: the natural product, reduced modulo 32768 (R82). -/
def multWord (b c : Word) : Word := BitVec.ofNat 16 ((b.toNat * c.toNat) % valueSpace)

/-- MOD for a divisor that is not 0: the natural remainder (R83). -/
def modWord (b c : Word) : Word := BitVec.ofNat 16 (b.toNat % c.toNat)

/-- AND, bit by bit (R84). -/
def andWord (b c : Word) : Word := b &&& c

/-- OR, bit by bit (R85). -/
def orWord (b c : Word) : Word := b ||| c

/-- NOT: all 16 bits complemented, then bit 15 cleared (R86). -/
def notWord (b : Word) : Word := ~~~b &&& mask15

end Sys2Proof.Machine
end

