-- ==== Sys2Proof/Syntax.lean ====
section
/-! DEFINITION. The instructions: one constructor for each row of `spec/opcode_table.json` (`30_encoding.md` R47),
with its operands in position order `a`, `b`, `c` (R9). An operand word is one of the alternatives of R49 and R50; a
word that names no literal and no register is kept as `bad`, because decoding it is a Fault of the instruction
(R58 stage 4), not of the opcode. -/

namespace Sys2Proof

/-- A general register, numbered 0 to 7 (`10_state.md` R11). -/
abbrev Reg := Fin 8

/-- A value operand (R49): a 15-bit literal, a register, or an invalid operand word. -/
inductive Src where
  | lit (v : BitVec 15)
  | reg (r : Reg)
  | bad (w : Word)
  deriving DecidableEq, Repr

/-- A destination operand (R50): a register, or an invalid operand word. -/
inductive Dst where
  | reg (r : Reg)
  | bad (w : Word)
  deriving DecidableEq, Repr

/-- The 22 instructions of R47, in the table's order. -/
inductive Instr where
  | halt
  | set (a : Dst) (b : Src)
  | push (a : Src)
  | pop (a : Dst)
  | eq (a : Dst) (b c : Src)
  | gt (a : Dst) (b c : Src)
  | jmp (a : Src)
  | jt (a b : Src)
  | jf (a b : Src)
  | add (a : Dst) (b c : Src)
  | mult (a : Dst) (b c : Src)
  | mod (a : Dst) (b c : Src)
  | and (a : Dst) (b c : Src)
  | or (a : Dst) (b c : Src)
  | not (a : Dst) (b : Src)
  | rmem (a : Dst) (b : Src)
  | wmem (a b : Src)
  | call (a : Src)
  | ret
  | out (a : Src)
  | in_ (a : Dst)
  | noop
  deriving DecidableEq, Repr

end Sys2Proof
end

