-- ==== Sys2Proof/WellFormed.lean ====
section
/-! DEFINITION. Which terms of `Instr` stand for encoded instructions, and which of those have only valid operand
words. A term is well formed when its `bad` operands really are words that R49 and R50 call invalid; it is legal when
it has no `bad` operand at all. -/

namespace Sys2Proof

/-- A word is a register reference: 32768 to 32775 (R49, R50). -/
def isRegisterWord (w : Word) : Bool :=
  decide (regBase ≤ w.toNat) && decide (w.toNat ≤ regTop)

/-- A `bad` value operand holds a word above 32775 (R49). -/
def Src.wf : Src → Bool
  | .lit _ => true
  | .reg _ => true
  | .bad w => decide (regTop < w.toNat)

/-- A `bad` destination operand holds a word that is no register reference (R50). -/
def Dst.wf : Dst → Bool
  | .reg _ => true
  | .bad w => !isRegisterWord w

/-- A value operand that resolves (R49). -/
def Src.legal : Src → Bool
  | .lit _ => true
  | .reg _ => true
  | .bad _ => false

/-- A destination operand that names a register (R50). -/
def Dst.legal : Dst → Bool
  | .reg _ => true
  | .bad _ => false

/-- Every operand of the instruction is well formed. -/
def Instr.wf : Instr → Bool
  | .halt => true
  | .set a b => a.wf && b.wf
  | .push a => a.wf
  | .pop a => a.wf
  | .eq a b c => a.wf && b.wf && c.wf
  | .gt a b c => a.wf && b.wf && c.wf
  | .jmp a => a.wf
  | .jt a b => a.wf && b.wf
  | .jf a b => a.wf && b.wf
  | .add a b c => a.wf && b.wf && c.wf
  | .mult a b c => a.wf && b.wf && c.wf
  | .mod a b c => a.wf && b.wf && c.wf
  | .and a b c => a.wf && b.wf && c.wf
  | .or a b c => a.wf && b.wf && c.wf
  | .not a b => a.wf && b.wf
  | .rmem a b => a.wf && b.wf
  | .wmem a b => a.wf && b.wf
  | .call a => a.wf
  | .ret => true
  | .out a => a.wf
  | .in_ a => a.wf
  | .noop => true

/-- Every operand of the instruction is legal, so that its stage 4 raises no Fault (R58). -/
def Instr.legal : Instr → Bool
  | .halt => true
  | .set a b => a.legal && b.legal
  | .push a => a.legal
  | .pop a => a.legal
  | .eq a b c => a.legal && b.legal && c.legal
  | .gt a b c => a.legal && b.legal && c.legal
  | .jmp a => a.legal
  | .jt a b => a.legal && b.legal
  | .jf a b => a.legal && b.legal
  | .add a b c => a.legal && b.legal && c.legal
  | .mult a b c => a.legal && b.legal && c.legal
  | .mod a b c => a.legal && b.legal && c.legal
  | .and a b c => a.legal && b.legal && c.legal
  | .or a b c => a.legal && b.legal && c.legal
  | .not a b => a.legal && b.legal
  | .rmem a b => a.legal && b.legal
  | .wmem a b => a.legal && b.legal
  | .call a => a.legal
  | .ret => true
  | .out a => a.legal
  | .in_ a => a.legal
  | .noop => true

/-- The length in words, the `words` column of R47 and R51. -/
def Instr.words : Instr → Nat
  | .halt => 1
  | .set _ _ => 3
  | .push _ => 2
  | .pop _ => 2
  | .eq _ _ _ => 4
  | .gt _ _ _ => 4
  | .jmp _ => 2
  | .jt _ _ => 3
  | .jf _ _ => 3
  | .add _ _ _ => 4
  | .mult _ _ _ => 4
  | .mod _ _ _ => 4
  | .and _ _ _ => 4
  | .or _ _ _ => 4
  | .not _ _ => 3
  | .rmem _ _ => 3
  | .wmem _ _ => 3
  | .call _ => 2
  | .ret => 1
  | .out _ => 2
  | .in_ _ => 2
  | .noop => 1

/-- The hardware implements the instruction: every one, except that IN exists only when `HAS_IN` (R5, R52). -/
def Instr.present (hasIn : Bool) : Instr → Bool
  | .in_ _ => hasIn
  | .halt | .set _ _ | .push _ | .pop _ | .eq _ _ _ | .gt _ _ _ | .jmp _ | .jt _ _ | .jf _ _ | .add _ _ _
  | .mult _ _ _ | .mod _ _ _ | .and _ _ _ | .or _ _ _ | .not _ _ | .rmem _ _ | .wmem _ _ | .call _ | .ret
  | .out _ | .noop => true

end Sys2Proof
end

