-- ==== Sys2Proof/Decode.lean ====
section
/-! DEFINITION. The decoder, from words to an instruction or a refusal by name, and the encoder, from an instruction
to its words (`30_encoding.md` R46 to R55). The decoder reads whole words, as the machine does (R34); `decodeTableWord`
is the same decoder on an instruction written as one number. -/

namespace Sys2Proof

/-- A format of R48 together with the instruction it builds. -/
inductive Form where
  | f0 (i : Instr)
  | fv (mk : Src → Instr)
  | fd (mk : Dst → Instr)
  | fdv (mk : Dst → Src → Instr)
  | fvv (mk : Src → Src → Instr)
  | fdvv (mk : Dst → Src → Src → Instr)

/-- Why words are no instruction. -/
inductive DecodeError where
  /-- There is no first word. -/
  | noOpcodeWord
  /-- The first word is no opcode (R52). -/
  | unknownOpcode (w : Word)
  /-- Operand word number `k` (0 for `wa`) is not there (R55). -/
  | missingOperand (k : Nat)
  deriving DecidableEq, Repr

/-- A value operand word (R49). -/
def decodeSrc (w : Word) : Src :=
  if w.toNat < regBase then .lit (w.setWidth 15)
  else if w.toNat ≤ regTop then .reg (Fin.ofNat 8 (w.toNat - regBase))
  else .bad w

/-- A destination operand word (R50). -/
def decodeDst (w : Word) : Dst :=
  if regBase ≤ w.toNat ∧ w.toNat ≤ regTop then .reg (Fin.ofNat 8 (w.toNat - regBase)) else .bad w

/-- The opcode map of R47: the whole first word is the opcode (R46). Opcode 20 is in the map only when `HAS_IN`
(R52); every word above 21 is in no row. -/
def opcodeForm (hasIn : Bool) (op : Word) : Option Form :=
  match op.toNat with
  | 0 => some (.f0 .halt)
  | 1 => some (.fdv .set)
  | 2 => some (.fv .push)
  | 3 => some (.fd .pop)
  | 4 => some (.fdvv .eq)
  | 5 => some (.fdvv .gt)
  | 6 => some (.fv .jmp)
  | 7 => some (.fvv .jt)
  | 8 => some (.fvv .jf)
  | 9 => some (.fdvv .add)
  | 10 => some (.fdvv .mult)
  | 11 => some (.fdvv .mod)
  | 12 => some (.fdvv .and)
  | 13 => some (.fdvv .or)
  | 14 => some (.fdv .not)
  | 15 => some (.fdv .rmem)
  | 16 => some (.fvv .wmem)
  | 17 => some (.fv .call)
  | 18 => some (.f0 .ret)
  | 19 => some (.fv .out)
  | 20 => if hasIn then some (.fd .in_) else none
  | 21 => some (.f0 .noop)
  | _ => none

/-- How many operand words follow the opcode word (R48, R51). -/
def operandCount : Form → Nat
  | .f0 _ => 0
  | .fv _ => 1
  | .fd _ => 1
  | .fdv _ => 2
  | .fvv _ => 2
  | .fdvv _ => 3

/-- The instruction of a format with the operand words `ws`, `wa` first (R48). -/
def buildInstr (f : Form) (ws : List Word) : Instr :=
  match f with
  | .f0 i => i
  | .fv mk => mk (decodeSrc (ws.getD 0 0#16))
  | .fd mk => mk (decodeDst (ws.getD 0 0#16))
  | .fdv mk => mk (decodeDst (ws.getD 0 0#16)) (decodeSrc (ws.getD 1 0#16))
  | .fvv mk => mk (decodeSrc (ws.getD 0 0#16)) (decodeSrc (ws.getD 1 0#16))
  | .fdvv mk => mk (decodeDst (ws.getD 0 0#16)) (decodeSrc (ws.getD 1 0#16)) (decodeSrc (ws.getD 2 0#16))

/-- The decoder: the instruction that the words begin with, and the words after it. The opcode is checked before any
operand word is looked for (R52), and operand words never change the length (R51). -/
def decode (hasIn : Bool) : List Word → Except DecodeError (Instr × List Word)
  | [] => .error .noOpcodeWord
  | op :: ws =>
    match opcodeForm hasIn op with
    | none => .error (.unknownOpcode op)
    | some f =>
      if ws.length < operandCount f then .error (.missingOperand ws.length)
      else .ok (buildInstr f ws, ws.drop (operandCount f))

/-- Two bytes as a cell, the low byte first (R33). -/
def joinBytes (lo hi : Byte) : Word := hi ++ lo

/-- The low byte of a word, bits 7 to 0. -/
def lowByte (w : Word) : Byte := w.extractLsb' 0 8

/-- The high byte of a word, bits 15 to 8. -/
def highByte (w : Word) : Byte := w.extractLsb' 8 8

/-- Image bytes grouped in pairs, each pair one cell, low byte first; an odd last byte is dropped (R33). -/
def cellsOfBytes : List Byte → List Word
  | lo :: hi :: bs => joinBytes lo hi :: cellsOfBytes bs
  | _ => []

/-- The four words of a number whose bit 0 is the least significant bit of the first word. -/
def wordsOfNat (w : Nat) : List Word :=
  [BitVec.ofNat 16 w, BitVec.ofNat 16 (w >>> 16), BitVec.ofNat 16 (w >>> 32), BitVec.ofNat 16 (w >>> 48)]

/-- The instruction that the decoder reads from the number `w` of `nbits` bits, numbered as
`spec/opcode_table.json` numbers them, with `HAS_IN` at its default (R5). -/
def decodeTableWord (nbits w : Nat) : Option Instr :=
  match decode Config.default.hasIn (wordsOfNat (w % 2 ^ nbits)) with
  | .ok (i, _) => some i
  | .error _ => none

/-! ## The encoder -/

/-- The word of a value operand (R49). -/
def encodeSrc : Src → Word
  | .lit v => v.setWidth 16
  | .reg r => BitVec.ofNat 16 (regBase + r.val)
  | .bad w => w

/-- The word of a destination operand (R50). -/
def encodeDst : Dst → Word
  | .reg r => BitVec.ofNat 16 (regBase + r.val)
  | .bad w => w

/-- The words of an instruction: the opcode of R47, then the operand words in position order (R46). -/
def encode : Instr → List Word
  | .halt => [0#16]
  | .set a b => [1#16, encodeDst a, encodeSrc b]
  | .push a => [2#16, encodeSrc a]
  | .pop a => [3#16, encodeDst a]
  | .eq a b c => [4#16, encodeDst a, encodeSrc b, encodeSrc c]
  | .gt a b c => [5#16, encodeDst a, encodeSrc b, encodeSrc c]
  | .jmp a => [6#16, encodeSrc a]
  | .jt a b => [7#16, encodeSrc a, encodeSrc b]
  | .jf a b => [8#16, encodeSrc a, encodeSrc b]
  | .add a b c => [9#16, encodeDst a, encodeSrc b, encodeSrc c]
  | .mult a b c => [10#16, encodeDst a, encodeSrc b, encodeSrc c]
  | .mod a b c => [11#16, encodeDst a, encodeSrc b, encodeSrc c]
  | .and a b c => [12#16, encodeDst a, encodeSrc b, encodeSrc c]
  | .or a b c => [13#16, encodeDst a, encodeSrc b, encodeSrc c]
  | .not a b => [14#16, encodeDst a, encodeSrc b]
  | .rmem a b => [15#16, encodeDst a, encodeSrc b]
  | .wmem a b => [16#16, encodeSrc a, encodeSrc b]
  | .call a => [17#16, encodeSrc a]
  | .ret => [18#16]
  | .out a => [19#16, encodeSrc a]
  | .in_ a => [20#16, encodeDst a]
  | .noop => [21#16]

end Sys2Proof
end

