-- ==== Sys2Proof/Machine/State.lean ====
section
/-! DEFINITION. The state of the machine (`10_state.md` R10 to R29) as plain data, the reasons a step can stop, and
the machine right after reset. -/

namespace Sys2Proof.Machine

/-- Memory: the bytes that differ from what an unlisted one reads as, by rising byte address. Cell `a` is the byte
`2 * a` (its low half) and the byte `2 * a + 1` (its high half), the order of the image (R33; DESIGN CHOICE, log 1). -/
abbrev Memory := List Host.Cell

/-- `run` (R19). -/
inductive RunState where
  | running
  | halted
  | faulted
  deriving DecidableEq, Repr

/-- The cause of a Fault (`60_exceptions.md` R95), in the order of its codes 0 to 9. -/
inductive FaultCause where
  | none
  | unknownOpcode
  | stackUnderflow
  | divideByZero
  | badDestination
  | badValueOperand
  | fetchOutOfRange
  | memAddressOutOfRange
  | inputEnd
  | stackOverflow
  deriving DecidableEq, Repr

/-- The fault record (R20). -/
structure FaultRecord where
  cause : FaultCause
  pc : Word
  info : Word
  deriving DecidableEq, Repr

/-- The fault record as reset leaves it (R29). -/
def FaultRecord.cleared : FaultRecord := { cause := .none, pc := 0#16, info := 0#16 }

/-- The state. `mem` to `fault` are the machine's own state, complete by R10. `out`, `inp`, `inpEnded` and `sinkReady`
are the environment's side of the two streams (R25, R26, R59). `cfg` holds the parameters that R5 leaves open. -/
structure State where
  /-- The memory (R30, R32). -/
  mem : Memory
  /-- The registers `x[0]` to `x[7]` (R11). -/
  regs : Vector Word 8
  /-- The stack, its top at the end (R7, R15). -/
  stack : List Word
  /-- The program counter (R13). -/
  pc : Word
  /-- The run state (R19). -/
  run : RunState
  /-- The fault record (R20). -/
  fault : FaultRecord
  /-- The characters emitted so far, the first one first (R25). -/
  out : List Byte
  /-- The characters available and not yet consumed, the next one first (R26). -/
  inp : List Byte
  /-- The input stream ends after `inp` (R26). -/
  inpEnded : Bool
  /-- The output sink is ready (R25, R59). -/
  sinkReady : Bool
  /-- The OPEN parameters (R5; DESIGN CHOICE to hold them here, log 3). -/
  cfg : Config
  deriving DecidableEq, Repr

/-- Why a step would stop outside the spec's own run states. A Fault of the spec is not one of these: it is a next
state whose `run` is `faulted` (R97; log 8). -/
inductive Fault where
  /-- Raised by nobody: the spec gives every step an outcome (R58, R66), so no step and no meaning answers
  `.fault`. The constructor only keeps the type inhabited. Safe. -/
  | neverRaised
  deriving DecidableEq, Repr

/-- Why an instruction would have no meaning. -/
inductive Refusal where
  /-- Raised by nobody now: it is the answer of an arm of `exec` for an instruction without a meaning, and every
  instruction has one. Safe. -/
  | notModelled (mnemonic : String)
  deriving DecidableEq, Repr

/-- The machine right after reset with the zero-length image (R29, R109). The environment's input stream and sink are
not reset by R29; here the stream is empty and not ended and the sink is ready (DESIGN CHOICE, log 4), and the
parameters are R5's defaults (log 3). -/
def State.reset : State :=
  { mem := []
    regs := Vector.replicate 8 0#16
    stack := []
    pc := 0#16
    run := .running
    fault := FaultRecord.cleared
    out := []
    inp := []
    inpEnded := false
    sinkReady := true
    cfg := Config.default }

end Sys2Proof.Machine
end

