-- ==== Sys2Proof/Machine/Ops.lean ====
section
/-! DEFINITION. The named operations every meaning is written with: memory, registers, program counter, stack, streams,
and the taking of a Fault (the primitives of `00_scope.md` R8). -/

namespace Sys2Proof.Machine

/-! ## Memory -/

/-- What a byte that memory does not list reads as: every cell beyond the image is 0 at reset (R29). -/
def unlistedByte : Byte := 0#8

/-- The byte at byte address `k`. -/
def readByte : Memory → Nat → Byte
  | [], _ => unlistedByte
  | (k', b) :: m, k => if k' = k then b else readByte m k

/-- Memory with the byte `v` at byte address `k`, in canonical form. -/
def writeByte : Memory → Nat → Byte → Memory
  | [], k, v => if v = unlistedByte then [] else [(k, v)]
  | (k', b) :: m, k, v =>
    if k < k' then
      if v = unlistedByte then (k', b) :: m else (k, v) :: (k', b) :: m
    else if k = k' then
      if v = unlistedByte then m else (k, v) :: m
    else (k', b) :: writeByte m k v

/-- Byte addresses rise strictly from `lo`, stay below the `2 * 32768` bytes of R30, and no entry is one that an
unlisted address reads as. -/
def Memory.wfFrom : Nat → Memory → Bool
  | _, [] => true
  | lo, (k, b) :: m =>
    decide (lo ≤ k) && decide (k < 2 * addressSpace) && decide (b ≠ unlistedByte) && Memory.wfFrom (k + 1) m

/-- The canonical form of memory. -/
def Memory.wf (m : Memory) : Bool := Memory.wfFrom 0 m

/-- The cell at address `a`, all 16 bits (R34, R37). -/
def readCell (m : Memory) (a : Nat) : Word := joinBytes (readByte m (2 * a)) (readByte m (2 * a + 1))

/-- Memory with the word `w` in the cell at address `a`, all 16 bits (R34, R38). -/
def writeCell (m : Memory) (a : Nat) (w : Word) : Memory :=
  writeByte (writeByte m (2 * a) (lowByte w)) (2 * a + 1) (highByte w)

/-! ## Registers and program counter -/

/-- `x[r]` (R11, R12). -/
def State.reg (s : State) (r : Reg) : Word := s.regs[r]

/-- `x[r] <- w`: all 16 bits, no mask, no register hard-wired (R11). -/
def State.setReg (s : State) (r : Reg) (w : Word) : State := { s with regs := s.regs.set r w }

/-- `pc <- t`: unmasked and unchecked (R13). -/
def State.setPc (s : State) (t : Word) : State := { s with pc := t }

/-- `pc <- pc + n`, the default advance of R63; not reduced modulo 32768 (R14). -/
def State.advance (s : State) (n : Nat) : State := { s with pc := s.pc + BitVec.ofNat 16 n }

/-! ## Faults -/

/-- What `raise Fault(cause, info)` names (R8). -/
structure Raise where
  cause : FaultCause
  info : Word
  deriving DecidableEq, Repr

/-- Taking a Fault (R97): the record is written, `run` becomes `Faulted`, and nothing else changes. -/
def State.takeFault (s : State) (r : Raise) : State :=
  { s with run := .faulted, fault := { cause := r.cause, pc := s.pc, info := r.info } }

/-- The end of an instruction: either all its writes, or the Fault taken in the state before it (R58 stage 6, R64). -/
def finish (s : State) : Except Raise State → Host.Outcome State Fault Refusal
  | .ok t => .next t
  | .error r => .next (s.takeFault r)

/-- `halt()`: `run` becomes `Halted` and nothing else changes (R73). -/
def State.halt (s : State) : State := { s with run := .halted }

/-! ## The range-checked accesses -/

/-- `Fetch(a)` (R36). -/
def State.fetchCell (s : State) (a : Nat) : Except Raise Word :=
  if a < addressSpace then .ok (readCell s.mem a)
  else .error { cause := .fetchOutOfRange, info := BitVec.ofNat 16 a }

/-- `MemRead(a, 1)` (R37). -/
def State.memRead (s : State) (a : Word) : Except Raise Word :=
  if a.toNat < addressSpace then .ok (readCell s.mem a.toNat)
  else .error { cause := .memAddressOutOfRange, info := a }

/-- `MemWrite(a, 1, v)` (R38). -/
def State.memWrite (s : State) (a v : Word) : Except Raise State :=
  if a.toNat < addressSpace then .ok { s with mem := writeCell s.mem a.toNat v }
  else .error { cause := .memAddressOutOfRange, info := a }

/-! ## The stack -/

/-- The stack is at its finite `STACK_DEPTH` (R17); never when that is unbounded. -/
def State.stackFull (s : State) : Bool :=
  match s.cfg.stackDepth with
  | some n => decide (n ≤ s.stack.length)
  | none => false

/-- `push(v)` (R17). -/
def State.push (s : State) (v : Word) : Except Raise State :=
  if s.stackFull then .error { cause := .stackOverflow, info := 0#16 }
  else .ok { s with stack := s.stack ++ [v] }

/-- `pop()`: the top entry and the state without it (R18). -/
def State.pop (s : State) : Except Raise (Word × State) :=
  match s.stack.getLast? with
  | none => .error { cause := .stackUnderflow, info := 0#16 }
  | some t => .ok (t, { s with stack := s.stack.dropLast })

/-! ## The streams -/

/-- `emit(b)` (R25). -/
def State.emit (s : State) (b : Byte) : State := { s with out := s.out ++ [b] }

/-- `take()` (R26): the next character and the state without it, or the Fault at the end of the stream. `none` is the
wait: no character is available yet, and the instruction does not step (R59). -/
def State.take (s : State) : Except Raise (Option (Byte × State)) :=
  match s.inp with
  | b :: bs => .ok (some (b, { s with inp := bs }))
  | [] => if s.inpEnded then .error { cause := .inputEnd, info := 0#16 } else .ok none

end Sys2Proof.Machine
end

