-- ==== Sys2Proof/Machine/Operands.lean ====
section
/-! DEFINITION. The two operand functions (`40_cycle_and_operands.md` R60, R61), and stage 4 of the step for each
format: every operand is decoded, in position order, used or not (R58, R62). -/

namespace Sys2Proof.Machine

/-- `dst(w)` (R61). -/
def dst : Dst → Except Raise Reg
  | .reg r => .ok r
  | .bad w => .error { cause := .badDestination, info := w }

/-- `val(w)` (R60): a literal is itself, a register gives its whole contents, resolved once. -/
def State.val (s : State) : Src → Except Raise Word
  | .lit v => .ok (v.setWidth 16)
  | .reg r => .ok (s.reg r)
  | .bad w => .error { cause := .badValueOperand, info := w }

/-- Stage 4 of format FDV (R48, R62). -/
def State.operandsDV (s : State) (a : Dst) (b : Src) : Except Raise (Reg × Word) := do
  let d ← dst a
  let vb ← s.val b
  return (d, vb)

/-- Stage 4 of format FVV (R48, R62). -/
def State.operandsVV (s : State) (a b : Src) : Except Raise (Word × Word) := do
  let va ← s.val a
  let vb ← s.val b
  return (va, vb)

/-- Stage 4 of format FDVV (R48, R62). -/
def State.operandsDVV (s : State) (a : Dst) (b c : Src) : Except Raise (Reg × Word × Word) := do
  let d ← dst a
  let vb ← s.val b
  let vc ← s.val c
  return (d, vb, vc)

/-- An instruction of format FDV that writes one register with a function of its value. -/
def State.unaryToReg (s : State) (f : Word → Word) (a : Dst) (b : Src) : Except Raise State := do
  let (d, vb) ← s.operandsDV a b
  return (s.setReg d (f vb)).advance 3

/-- An instruction of format FDVV that writes one register with a function of its two values. -/
def State.binaryToReg (s : State) (f : Word → Word → Word) (a : Dst) (b c : Src) : Except Raise State := do
  let (d, vb, vc) ← s.operandsDVV a b c
  return (s.setReg d (f vb vc)).advance 4

end Sys2Proof.Machine
end

