-- ==== Sys2Proof/Machine/ArithmeticLogic.lean ====
section
/-! DEFINITION. ADD, MULT, MOD, AND, OR and NOT (`44_arithmetic_logic.md` R81 to R86). -/

namespace Sys2Proof.Machine

/-- ADD (R81). -/
def execAdd (a : Dst) (b c : Src) (s : State) : Host.Outcome State Fault Refusal :=
  finish s (s.binaryToReg addWord a b c)

/-- MULT (R82). -/
def execMult (a : Dst) (b c : Src) (s : State) : Host.Outcome State Fault Refusal :=
  finish s (s.binaryToReg multWord a b c)

/-- MOD: a divisor of 0 is a Fault, tested after all operands are decoded (R83). -/
def execMod (a : Dst) (b c : Src) (s : State) : Host.Outcome State Fault Refusal :=
  finish s do
    let (d, vb, vc) ← s.operandsDVV a b c
    if vc = 0#16 then
      .error { cause := .divideByZero, info := 0#16 }
    else
      return (s.setReg d (modWord vb vc)).advance 4

/-- AND (R84). -/
def execAnd (a : Dst) (b c : Src) (s : State) : Host.Outcome State Fault Refusal :=
  finish s (s.binaryToReg andWord a b c)

/-- OR (R85). -/
def execOr (a : Dst) (b c : Src) (s : State) : Host.Outcome State Fault Refusal :=
  finish s (s.binaryToReg orWord a b c)

/-- NOT (R86). -/
def execNot (a : Dst) (b : Src) (s : State) : Host.Outcome State Fault Refusal :=
  finish s (s.unaryToReg notWord a b)

end Sys2Proof.Machine
end

