-- ==== Sys2Proof/Machine/Compare.lean ====
section
/-! DEFINITION. EQ and GT (`42_compare.md` R71, R72). -/

namespace Sys2Proof.Machine

/-- EQ (R71). -/
def execEq (a : Dst) (b c : Src) (s : State) : Host.Outcome State Fault Refusal :=
  finish s (s.binaryToReg eqWord a b c)

/-- GT (R72). -/
def execGt (a : Dst) (b c : Src) (s : State) : Host.Outcome State Fault Refusal :=
  finish s (s.binaryToReg gtWord a b c)

end Sys2Proof.Machine
end

