-- ==== Sys2Proof/Machine/Control.lean ====
section
/-! DEFINITION. HALT, JMP, JT, JF, CALL, RET and NOOP (`43_control.md` R73 to R80). A target is written to `pc` as a
word, unmasked and unchecked; a target outside memory is found by the next fetch. -/

namespace Sys2Proof.Machine

/-- HALT: `pc` is not advanced (R73). -/
def execHalt (s : State) : Host.Outcome State Fault Refusal :=
  finish s (.ok s.halt)

/-- JMP (R74). -/
def execJmp (a : Src) (s : State) : Host.Outcome State Fault Refusal :=
  finish s do
    let va ← s.val a
    return s.setPc va

/-- JT: the target is decoded even when it is not used (R75). -/
def execJt (a b : Src) (s : State) : Host.Outcome State Fault Refusal :=
  finish s do
    let (va, vb) ← s.operandsVV a b
    return if isTrueWord va then s.setPc vb else s.advance 3

/-- JF: the target is decoded even when it is not used (R76). -/
def execJf (a b : Src) (s : State) : Host.Outcome State Fault Refusal :=
  finish s do
    let (va, vb) ← s.operandsVV a b
    return if isTrueWord va then s.advance 3 else s.setPc vb

/-- CALL: the address after the two words of the CALL is pushed, not reduced modulo 32768 (R77). -/
def execCall (a : Src) (s : State) : Host.Outcome State Fault Refusal :=
  finish s do
    let va ← s.val a
    let t ← s.push (s.pc + 2#16)
    return t.setPc va

/-- RET: whatever is on top of the stack (R78). -/
def execRet (s : State) : Host.Outcome State Fault Refusal :=
  finish s do
    let (w, t) ← s.pop
    return t.setPc w

/-- NOOP (R79). -/
def execNoop (s : State) : Host.Outcome State Fault Refusal :=
  finish s (.ok (s.advance 1))

end Sys2Proof.Machine
end

