-- ==== Sys2Proof/Machine/DataMovement.lean ====
section
/-! DEFINITION. SET, PUSH and POP (`41_data_movement.md` R68 to R70). Words are copied whole, 16 bits. -/

namespace Sys2Proof.Machine

/-- SET (R68). -/
def execSet (a : Dst) (b : Src) (s : State) : Host.Outcome State Fault Refusal :=
  finish s (s.unaryToReg id a b)

/-- PUSH (R69). -/
def execPush (a : Src) (s : State) : Host.Outcome State Fault Refusal :=
  finish s do
    let va ← s.val a
    let t ← s.push va
    return t.advance 2

/-- POP (R70). -/
def execPop (a : Dst) (s : State) : Host.Outcome State Fault Refusal :=
  finish s do
    let d ← dst a
    let (w, t) ← s.pop
    return (t.setReg d w).advance 2

end Sys2Proof.Machine
end

