-- ==== Sys2Proof/Machine/InputOutput.lean ====
section
/-! DEFINITION. OUT and IN (`46_io.md` R92, R93). Their operands are decoded before any wait, so a Fault of stage 4 is
never delayed (`40_cycle_and_operands.md` R59). A wait is the unchanged state (log 5). -/

namespace Sys2Proof.Machine

/-- OUT: the low 8 bits of the value (R92); it waits while the sink is not ready (R59). -/
def execOut (a : Src) (s : State) : Host.Outcome State Fault Refusal :=
  finish s do
    let va ← s.val a
    return if s.sinkReady then (s.emit (lowByte va)).advance 2 else s

/-- IN: one character, zero-extended (R93); it waits while none is available and the stream has not ended (R59). -/
def execIn (a : Dst) (s : State) : Host.Outcome State Fault Refusal :=
  finish s do
    let d ← dst a
    match ← s.take with
    | none => return s
    | some (b, t) => return (t.setReg d (b.setWidth 16)).advance 2

end Sys2Proof.Machine
end

