-- ==== Sys2Proof/Machine/MemoryAccess.lean ====
section
/-! DEFINITION. RMEM and WMEM (`45_memory_access.md` R90, R91). The effective address is the resolved value of one
operand, and the access moves one whole cell. -/

namespace Sys2Proof.Machine

/-- RMEM (R90). -/
def execRmem (a : Dst) (b : Src) (s : State) : Host.Outcome State Fault Refusal :=
  finish s do
    let (d, vb) ← s.operandsDV a b
    let w ← s.memRead vb
    return (s.setReg d w).advance 3

/-- WMEM: both operands are values, the address and the data (R91). -/
def execWmem (a b : Src) (s : State) : Host.Outcome State Fault Refusal :=
  finish s do
    let (va, vb) ← s.operandsVV a b
    let t ← s.memWrite va vb
    return t.advance 3

end Sys2Proof.Machine
end

