-- ==== Sys2Proof/Machine/Fetch.lean ====
section
/-! DEFINITION. Stages 1 to 3 of the step (`40_cycle_and_operands.md` R58): fetch the opcode word, check it, and fetch
its operand words in address order. Also the placing of words where the next step fetches them. -/

namespace Sys2Proof.Machine

/-- Stage 3: `n` operand words from address `a` upward; the first address outside memory is the Fault (R36, R55). -/
def State.fetchOperands (s : State) : Nat → Nat → Except Raise (List Word)
  | _, 0 => .ok []
  | a, n + 1 => do
    let w ← s.fetchCell a
    let ws ← s.fetchOperands (a + 1) n
    return w :: ws

/-- Stages 1 to 3: the instruction at `pc`, or the first Fault met (R58, R99). -/
def State.fetchInstr (s : State) : Except Raise Instr := do
  let op ← s.fetchCell s.pc.toNat
  match opcodeForm s.cfg.hasIn op with
  | none => .error { cause := .unknownOpcode, info := op }
  | some f =>
    let ws ← s.fetchOperands (s.pc.toNat + 1) (operandCount f)
    return buildInstr f ws

/-- Words in consecutive cells from address `a` upward. -/
def writeCells : Memory → Nat → List Word → Memory
  | m, _, [] => m
  | m, a, w :: ws => writeCells (writeCell m a w) (a + 1) ws

/-- The state about to run the instruction with the words `ws` (at most four): running, and `ws` in the cells at `pc`.
A `pc` from which four cells would leave memory is moved to 0. -/
def State.placeWords (s : State) (ws : List Word) : State :=
  let pc := if s.pc.toNat + 4 ≤ addressSpace then s.pc else 0#16
  { s with run := .running, pc := pc, mem := writeCells s.mem pc.toNat ws }

end Sys2Proof.Machine
end

