-- ==== Sys2Proof/Machine/Step.lean ====
section
/-! DEFINITION. The step (`40_cycle_and_operands.md` R58, R59). -/

namespace Sys2Proof.Machine

/-- One step. In `Running` the instruction at `pc` is fetched and executed, or the Fault of its fetch is taken (R58).
In `Halted` and `Faulted` no step happens and nothing changes (R19, R59), which is the unchanged state here (log 5). -/
def step (s : State) : Host.Outcome State Fault Refusal :=
  match s.run with
  | .running =>
    match s.fetchInstr with
    | .ok i => exec i s
    | .error r => .next (s.takeFault r)
  | .halted => .next s
  | .faulted => .next s

/-- `s` with the instruction whose bits are `w` (numbered as the opcode table numbers them, the bits from `nbits` up
being 0) stored where the next step fetches. It stands for the environment's load of a program (R28; log 7). -/
def State.withFetchWord (s : State) (nbits w : Nat) : State :=
  s.placeWords (wordsOfNat (w % 2 ^ nbits))

end Sys2Proof.Machine
end

