-- ==== Sys2Proof/Machine/Environment.lean ====
section
/-! DEFINITION. The environment's side of the five interfaces (`10_state.md` R23 to R28): what it reads, and what it
may do between two steps. No step calls these functions; the environment is no agent of the step (`00_scope.md` R4). -/

namespace Sys2Proof.Machine

/-! ## The status outputs (R27) -/

/-- `run` on the status outputs, 2 bits (R19). -/
def runCode : RunState → BitVec 2
  | .running => 0#2
  | .halted => 1#2
  | .faulted => 2#2

/-- `fault.cause` on the status outputs, 4 bits (R95). -/
def causeCode : FaultCause → BitVec 4
  | .none => 0#4
  | .unknownOpcode => 1#4
  | .stackUnderflow => 2#4
  | .divideByZero => 3#4
  | .badDestination => 4#4
  | .badValueOperand => 5#4
  | .fetchOutOfRange => 6#4
  | .memAddressOutOfRange => 7#4
  | .inputEnd => 8#4
  | .stackOverflow => 9#4

/-- The status outputs (R27). -/
structure Status where
  run : BitVec 2
  cause : BitVec 4
  pc : BitVec 16
  info : BitVec 16
  deriving DecidableEq, Repr

/-- What the environment reads of a state (R27). -/
def State.status (s : State) : Status :=
  { run := runCode s.run, cause := causeCode s.fault.cause, pc := s.fault.pc, info := s.fault.info }

/-! ## The memory load interface (R28, R33) -/

/-- The listed bytes of an image whose first byte has byte address `k`. -/
def imageBytes : Nat → List Byte → Memory
  | _, [] => []
  | k, b :: bs => if b = unlistedByte then imageBytes (k + 1) bs else (k, b) :: imageBytes (k + 1) bs

/-- The initial memory of an image: whole cells only, so an odd last byte is dropped (R33). `none` is the Load error of
an image of more than 32768 cells, on which the machine is never started (R94, R105, R111). -/
def loadImage (image : List Byte) : Option Memory :=
  if image.length / 2 ≤ addressSpace then some (imageBytes 0 (image.take (2 * (image.length / 2)))) else none

/-! ## What the environment does between two steps -/

/-- An event of the environment. -/
inductive EnvEvent where
  /-- Reset is asserted and released, with this image loaded (R24, R28, R109 to R111). -/
  | reset (image : List Byte)
  /-- One more input character becomes available (R26). -/
  | supply (b : Byte)
  /-- The input stream ends after the characters supplied so far (R26). -/
  | endInput
  /-- The output sink becomes ready or not ready (R25, R59). -/
  | sink (ready : Bool)
  deriving DecidableEq, Repr

/-- The state after reset with `mem` loaded: the values of R29 for the machine's own state, from any run state (R109,
R110). `out` restarts empty (R25); the input stream, the sink and the parameters are not reset (R26, R29). -/
def State.afterReset (s : State) (mem : Memory) : State :=
  { State.reset with mem := mem, inp := s.inp, inpEnded := s.inpEnded, sinkReady := s.sinkReady, cfg := s.cfg }

/-- One event of the environment. `none` only for a reset whose image is a Load error. A character offered after the
stream has ended is not part of it (DESIGN CHOICE, log 6). -/
def envStep (e : EnvEvent) (s : State) : Option State :=
  match e with
  | .reset image =>
    match loadImage image with
    | some mem => some (s.afterReset mem)
    | none => none
  | .supply b => some (if s.inpEnded then s else { s with inp := s.inp ++ [b] })
  | .endInput => some { s with inpEnded := true }
  | .sink ready => some { s with sinkReady := ready }

end Sys2Proof.Machine
end

