-- ==== Sys2Proof/Safety.lean ====
section
/-! DEFINITION. The terms in which claims about the machine are stated: the state a Fault leaves, the invariant of every
run, what an instruction may change, and the shape of the rules of one format. -/

namespace Sys2Proof.Machine

/-! ## Faults -/

/-- The state after a Fault, written out from R97: the record, and `run`; nothing else. -/
def State.faultedWith (s : State) (cause : FaultCause) (info : Word) : State :=
  { s with run := .faulted, fault := { cause := cause, pc := s.pc, info := info } }

/-- The Faults an instruction can raise once it is fetched: its row of R96 from stage 4 on. -/
def mayRaise : Instr → List FaultCause
  | .halt => []
  | .set _ _ => [.badDestination, .badValueOperand]
  | .push _ => [.badValueOperand, .stackOverflow]
  | .pop _ => [.badDestination, .stackUnderflow]
  | .eq _ _ _ => [.badDestination, .badValueOperand]
  | .gt _ _ _ => [.badDestination, .badValueOperand]
  | .jmp _ => [.badValueOperand]
  | .jt _ _ => [.badValueOperand]
  | .jf _ _ => [.badValueOperand]
  | .add _ _ _ => [.badDestination, .badValueOperand]
  | .mult _ _ _ => [.badDestination, .badValueOperand]
  | .mod _ _ _ => [.badDestination, .badValueOperand, .divideByZero]
  | .and _ _ _ => [.badDestination, .badValueOperand]
  | .or _ _ _ => [.badDestination, .badValueOperand]
  | .not _ _ => [.badDestination, .badValueOperand]
  | .rmem _ _ => [.badDestination, .badValueOperand, .memAddressOutOfRange]
  | .wmem _ _ => [.badValueOperand, .memAddressOutOfRange]
  | .call _ => [.badValueOperand, .stackOverflow]
  | .ret => [.stackUnderflow]
  | .out _ => [.badValueOperand]
  | .in_ _ => [.badDestination, .inputEnd]
  | .noop => []

/-- The destination operand of an instruction, whatever its word. -/
def dstOperand : Instr → Option Dst
  | .set a _ | .pop a | .eq a _ _ | .gt a _ _ | .add a _ _ | .mult a _ _ | .mod a _ _ | .and a _ _ | .or a _ _ | .not a _
  | .rmem a _ | .in_ a => some a
  | .halt | .push _ | .jmp _ | .jt _ _ | .jf _ _ | .wmem _ _ | .call _ | .ret | .out _ | .noop => none

/-- The value operands of an instruction, in position order. -/
def srcOperands : Instr → List Src
  | .halt | .pop _ | .ret | .in_ _ | .noop => []
  | .set _ b | .not _ b | .rmem _ b => [b]
  | .push a | .jmp a | .call a | .out a => [a]
  | .jt a b | .jf a b | .wmem a b => [a, b]
  | .eq _ b c | .gt _ b c | .add _ b c | .mult _ b c | .mod _ b c | .and _ b c | .or _ b c => [b, c]

/-- The first operand of `i` to fail is a value operand, and its word is `w`: the destination, if there is one, is a
register, and every value operand before it is legal (R62, R99). -/
def firstBadValue (i : Instr) (w : Word) : Prop :=
  (∀ v, dstOperand i ≠ some (.bad v)) ∧ (srcOperands i).find? (fun a => !a.legal) = some (.bad w)

/-- What the fault record of a faulted state says about that state (R95, R98, R99): the condition of the recorded cause
holds in it and is the first one met, and `info` is the offending word or address. A Fault changes neither memory nor
`pc` nor the registers, so `fetchInstr` gives the faulting instruction and `val` the values it had. -/
def faultInfoOk (s : State) : Prop :=
  match s.fault.cause with
  | .none => False
  | .unknownOpcode =>
    s.pc.toNat < 32768 ∧ s.fault.info = readCell s.mem s.pc.toNat ∧
      (21 < s.fault.info.toNat ∨ (s.fault.info = 20#16 ∧ s.cfg.hasIn = false))
  | .stackUnderflow =>
    s.fault.info = 0#16 ∧ s.stack = [] ∧ ((∃ d, s.fetchInstr = .ok (.pop (.reg d))) ∨ s.fetchInstr = .ok .ret)
  | .divideByZero =>
    s.fault.info = 0#16 ∧ ∃ d b c, s.fetchInstr = .ok (.mod (.reg d) b c) ∧ b.legal = true ∧ s.val c = .ok 0#16
  | .badDestination =>
    (s.fault.info.toNat < 32768 ∨ 32775 < s.fault.info.toNat) ∧ s.fault.info = readCell s.mem (s.pc.toNat + 1) ∧
      ∃ i, s.fetchInstr = .ok i ∧ dstOperand i = some (.bad s.fault.info)
  | .badValueOperand =>
    32775 < s.fault.info.toNat ∧
      ∃ i k, s.fetchInstr = .ok i ∧ firstBadValue i s.fault.info ∧ 1 ≤ k ∧ k < i.words ∧
        s.fault.info = readCell s.mem (s.pc.toNat + k)
  | .fetchOutOfRange =>
    (32768 ≤ s.pc.toNat ∧ s.fault.info = s.pc) ∨
      (s.pc.toNat < 32768 ∧ s.fault.info = 32768#16 ∧
        ∃ f, opcodeForm s.cfg.hasIn (readCell s.mem s.pc.toNat) = some f ∧ 32768 ≤ s.pc.toNat + operandCount f)
  | .memAddressOutOfRange =>
    32768 ≤ s.fault.info.toNat ∧
      ((∃ d b, s.fetchInstr = .ok (.rmem (.reg d) b) ∧ s.val b = .ok s.fault.info) ∨
        ∃ a b, s.fetchInstr = .ok (.wmem a b) ∧ s.val a = .ok s.fault.info ∧ b.legal = true)
  | .inputEnd =>
    s.fault.info = 0#16 ∧ s.inp = [] ∧ s.inpEnded = true ∧ ∃ d, s.fetchInstr = .ok (.in_ (.reg d))
  | .stackOverflow =>
    s.fault.info = 0#16 ∧ s.cfg.stackDepth = some s.stack.length ∧
      ∃ a, a.legal = true ∧ (s.fetchInstr = .ok (.push a) ∨ s.fetchInstr = .ok (.call a))

/-! ## The invariant -/

/-- What holds in every state of every run: memory is in canonical form, a finite stack is within its depth (R17), the
fault record is clear until a Fault is taken (R20, R108), after one it names a condition that holds (R97, R98), and in
`Halted` the program counter is at a HALT (R13, R73). -/
structure Inv (s : State) : Prop where
  memory : s.mem.wf = true
  stackFits : ∀ n, s.cfg.stackDepth = some n → s.stack.length ≤ n
  recordClear : s.run ≠ .faulted → s.fault = { cause := .none, pc := 0#16, info := 0#16 }
  recordOfFault : s.run = .faulted → s.fault.pc = s.pc ∧ faultInfoOk s
  haltedAtHalt : s.run = .halted → s.pc.toNat < 32768 ∧ readCell s.mem s.pc.toNat = 0#16

/-! ## What an instruction changes -/

/-- Nothing changes but `pc`: every register, every byte of memory, the stack, the streams, `run` and the fault record
are the same. -/
def onlyPc (s t : State) : Prop := t = { s with pc := t.pc }

/-- Nothing changes but `pc` and the register `d`. -/
def onlyRegAndPc (d : Reg) (s t : State) : Prop :=
  t = { s with regs := t.regs, pc := t.pc } ∧ ∀ r, r ≠ d → t.reg r = s.reg r

/-- Nothing changes but `pc` and the stack. -/
def onlyStackAndPc (s t : State) : Prop := t = { s with stack := t.stack, pc := t.pc }

/-- Nothing changes but `pc`, the stack and the register `d`. -/
def onlyRegStackAndPc (d : Reg) (s t : State) : Prop :=
  t = { s with regs := t.regs, stack := t.stack, pc := t.pc } ∧ ∀ r, r ≠ d → t.reg r = s.reg r

/-- Nothing changes but `pc` and the two bytes of the memory cell `a`. -/
def onlyCellAndPc (a : Nat) (s t : State) : Prop :=
  t = { s with mem := t.mem, pc := t.pc } ∧
    ∀ k, k ≠ 2 * a → k ≠ 2 * a + 1 → readByte t.mem k = readByte s.mem k

/-- The destination register of an instruction, if it has one (R12). -/
def destination : Instr → Option Reg
  | .set (.reg d) _ | .pop (.reg d) | .eq (.reg d) _ _ | .gt (.reg d) _ _ | .add (.reg d) _ _ | .mult (.reg d) _ _
  | .mod (.reg d) _ _ | .and (.reg d) _ _ | .or (.reg d) _ _ | .not (.reg d) _ | .rmem (.reg d) _
  | .in_ (.reg d) => some d
  | .halt | .push _ | .jmp _ | .jt _ _ | .jf _ _ | .wmem _ _ | .call _ | .ret | .out _ | .noop
  | .set (.bad _) _ | .pop (.bad _) | .eq (.bad _) _ _ | .gt (.bad _) _ _ | .add (.bad _) _ _
  | .mult (.bad _) _ _ | .mod (.bad _) _ _ | .and (.bad _) _ _ | .or (.bad _) _ _ | .not (.bad _) _
  | .rmem (.bad _) _ | .in_ (.bad _) => none

/-- The instructions that assign `pc` other than by their length, or not at all (R63). -/
def assignsPc : Instr → Bool
  | .halt | .jmp _ | .jt _ _ | .jf _ _ | .call _ | .ret => true
  | .set _ _ | .push _ | .pop _ | .eq _ _ _ | .gt _ _ _ | .add _ _ _ | .mult _ _ _ | .mod _ _ _ | .and _ _ _
  | .or _ _ _ | .not _ _ | .rmem _ _ | .wmem _ _ | .out _ | .in_ _ | .noop => false

/-- The engine waits (R59, R107): a running IN with a good destination and no character yet, or a running OUT with a
good operand and a sink that is not ready. -/
def waiting (s : State) : Prop :=
  s.run = .running ∧
    ((∃ d, s.fetchInstr = .ok (.in_ (.reg d)) ∧ s.inp = [] ∧ s.inpEnded = false) ∨
      (∃ a, s.fetchInstr = .ok (.out a) ∧ a.legal = true ∧ s.sinkReady = false))

/-! ## The cells at the program counter -/

/-- The cells from `pc` upward, at most four and none outside memory: all that an instruction at `pc` can consist of. -/
def cellsAtPc (s : State) : List Word :=
  (List.range (min 4 (32768 - s.pc.toNat))).map fun k => readCell s.mem (s.pc.toNat + k)

/-! ## The shape of the rules of one format

Each says, of an instruction `mk …` with opcode `op`: its words (R46, R48), the Fault of its first bad operand (R60 to
R62), and that with good operands `exec` ANSWERS A NEXT STATE, which one, and what is left unchanged. -/

/-- Format FDV: `x[d] <- f(vb)`, `pc <- pc + 3`, and nothing else. -/
def unaryRule (mk : Dst → Src → Instr) (op : Word) (f : Nat → Nat) : Prop :=
  (∀ a b, encode (mk a b) = [op, encodeDst a, encodeSrc b]) ∧
  (∀ s w b, exec (mk (.bad w) b) s = .next (s.faultedWith .badDestination w)) ∧
  (∀ s d w, exec (mk (.reg d) (.bad w)) s = .next (s.faultedWith .badValueOperand w)) ∧
  ∀ s d b vb, s.val b = .ok vb →
    ∃ t, exec (mk (.reg d) b) s = .next t ∧ (t.reg d).toNat = f vb.toNat ∧ t.pc = s.pc + 3#16 ∧ onlyRegAndPc d s t

/-- The Faults of the operands of an instruction of format FDVV, in position order. -/
def badOperandsDVV (mk : Dst → Src → Src → Instr) : Prop :=
  (∀ s w b c, exec (mk (.bad w) b c) s = .next (s.faultedWith .badDestination w)) ∧
  (∀ s d w c, exec (mk (.reg d) (.bad w) c) s = .next (s.faultedWith .badValueOperand w)) ∧
  (∀ s d b w, b.legal = true → exec (mk (.reg d) b (.bad w)) s = .next (s.faultedWith .badValueOperand w))

/-- Format FDVV: `x[d] <- f(vb, vc)`, `pc <- pc + 4`, and nothing else. -/
def binaryRule (mk : Dst → Src → Src → Instr) (op : Word) (f : Nat → Nat → Nat) : Prop :=
  (∀ a b c, encode (mk a b c) = [op, encodeDst a, encodeSrc b, encodeSrc c]) ∧
  badOperandsDVV mk ∧
  ∀ s d b c vb vc, s.val b = .ok vb → s.val c = .ok vc →
    ∃ t, exec (mk (.reg d) b c) s = .next t ∧ (t.reg d).toNat = f vb.toNat vc.toNat ∧ t.pc = s.pc + 4#16 ∧
      onlyRegAndPc d s t

/-- The words and the operand Faults of an instruction of format FVV. -/
def badOperandsVV (mk : Src → Src → Instr) (op : Word) : Prop :=
  (∀ a b, encode (mk a b) = [op, encodeSrc a, encodeSrc b]) ∧
  (∀ s w b, exec (mk (.bad w) b) s = .next (s.faultedWith .badValueOperand w)) ∧
  (∀ s a w, a.legal = true → exec (mk a (.bad w)) s = .next (s.faultedWith .badValueOperand w))

/-- The words and the operand Fault of an instruction of format FV. -/
def badOperandV (mk : Src → Instr) (op : Word) : Prop :=
  (∀ a, encode (mk a) = [op, encodeSrc a]) ∧
  (∀ s w, exec (mk (.bad w)) s = .next (s.faultedWith .badValueOperand w))

/-- The words and the operand Fault of an instruction of format FD. -/
def badOperandD (mk : Dst → Instr) (op : Word) : Prop :=
  (∀ a, encode (mk a) = [op, encodeDst a]) ∧
  (∀ s w, exec (mk (.bad w)) s = .next (s.faultedWith .badDestination w))

end Sys2Proof.Machine
end

