-- ==== Sys2Proof/Certificates/Slice0/Obligations.lean ====
section
/-! DEFINITION. The statements for the provers. Each docstring names the rules of the spec that the statement rests on,
and says where a clause is the spec's own decision (D<n> of `92_eei_decisions.md`) or the model's choice (a log entry).
The conclusion `exec i s = .next t` of the instruction rules says that the instruction completes. The record that a Fault
leaves, `faultedWith`, is that of R97 and R98, which are the spec's decisions D8 and D9. -/

open Sys2Proof Sys2Proof.Machine

/-! ## Encoding -/

/-- R50: the words 32768 to 32775 name registers 0 to 7, and every other word is an invalid destination. -/
def Obligations.DestinationWordsClassified : Prop :=
  ∀ w : Word,
    (32768 ≤ w.toNat → w.toNat ≤ 32775 → ∃ r : Reg, decodeDst w = .reg r ∧ r.val = w.toNat - 32768) ∧
    (w.toNat < 32768 ∨ 32775 < w.toNat → decodeDst w = .bad w)

/-- R49, in numbers and in bits (the bits are the spec's derivation): a word with bit 15 clear is the literal of its own
value, zero-extended; a word with bit 15 set and bits 14 to 3 clear names the register of bits 2 to 0; every other word
is invalid. -/
def Obligations.ValueWordsClassified : Prop :=
  ∀ w : Word,
    (w.toNat < 32768 → ∃ v : BitVec 15, decodeSrc w = .lit v ∧ v.toNat = w.toNat ∧ v.setWidth 16 = w) ∧
    (32768 ≤ w.toNat → w.toNat ≤ 32775 → ∃ r : Reg, decodeSrc w = .reg r ∧ r.val = w.toNat - 32768) ∧
    (32775 < w.toNat → decodeSrc w = .bad w) ∧
    (w.toNat < 32768 ↔ w.getLsbD 15 = false) ∧
    (32768 ≤ w.toNat ∧ w.toNat ≤ 32775 ↔ w.getLsbD 15 = true ∧ w.extractLsb' 3 12 = 0#12) ∧
    (32768 ≤ w.toNat → w.toNat ≤ 32775 → w.toNat - 32768 = (w.extractLsb' 0 3).toNat)

/-- R46 to R51: decoding the words of a well-formed instruction, with any words after them, gives the instruction back,
for every operand the encoding admits, the invalid words among them. -/
def Obligations.DecodeOfEncode : Prop :=
  ∀ (hasIn : Bool) (i : Instr) (rest : List Word), i.wf = true → i.present hasIn = true →
    decode hasIn (encode i ++ rest) = .ok (i, rest)

/-- R46 to R51: what decodes is a well-formed instruction of the hardware, and its words are the ones decoded. -/
def Obligations.EncodeOfDecode : Prop :=
  ∀ (hasIn : Bool) (ws : List Word) (i : Instr) (rest : List Word), decode hasIn ws = .ok (i, rest) →
    i.wf = true ∧ i.present hasIn = true ∧ encode i ++ rest = ws

/-- R51: the length follows from the opcode word alone, and an unknown opcode has none. -/
def Obligations.LengthFollowsFromOpcode : Prop :=
  ∀ (hasIn : Bool) (op : Word) (ws : List Word),
    (∀ i rest, decode hasIn (op :: ws) = .ok (i, rest) →
      (op.toNat ∈ [0, 18, 21] → rest = ws) ∧
      (op.toNat ∈ [2, 3, 6, 17, 19, 20] → rest = ws.drop 1 ∧ 1 ≤ ws.length) ∧
      (op.toNat ∈ [1, 7, 8, 14, 15, 16] → rest = ws.drop 2 ∧ 2 ≤ ws.length) ∧
      (op.toNat ∈ [4, 5, 9, 10, 11, 12, 13] → rest = ws.drop 3 ∧ 3 ≤ ws.length) ∧
      op.toNat ≤ 21) ∧
    (21 < op.toNat → decode hasIn (op :: ws) = .error (.unknownOpcode op))

/-- Sanity: words written out from R47 and R56 decode to the instructions they stand for, one of each family. -/
def Obligations.SpecWordsDecode : Prop :=
  decodeTableWord 48 0x04D280010001 = some (.set (.reg 1) (.lit 1234)) ∧
  decodeTableWord 64 0x0007800180000004 = some (.eq (.reg 0) (.reg 1) (.lit 7)) ∧
  decodeTableWord 48 0x006480000007 = some (.jt (.reg 0) (.lit 100)) ∧
  decodeTableWord 64 0x8002800180000009 = some (.add (.reg 0) (.reg 1) (.reg 2)) ∧
  decodeTableWord 48 0x001500030010 = some (.wmem (.lit 3) (.lit 21)) ∧
  decodeTableWord 32 0x80000014 = some (.in_ (.reg 0)) ∧
  decodeTableWord 16 0x0100 = none

/-! ## Reset, image and environment -/

/-- R29: what reset leaves. `run` and the fault record are decision D22 of the spec; the parameters are the defaults of
R5 (log 3). The empty, not ended input and the ready sink are the model's choice (log 4) and are not stated. -/
def Obligations.ResetValues : Prop :=
  (∀ a, readCell State.reset.mem a = 0#16) ∧ (∀ r, State.reset.reg r = 0#16) ∧ State.reset.stack = [] ∧
  State.reset.pc = 0#16 ∧ State.reset.run = .running ∧
  State.reset.fault = { cause := .none, pc := 0#16, info := 0#16 } ∧ State.reset.out = [] ∧
  State.reset.cfg = { stackDepth := none, hasIn := true }

/-- R33: an image of `L` bytes fills the cells below `N = L / 2` with its byte pairs, low byte first, drops an odd last
byte, and leaves every other cell 0; more than 32768 cells are a Load error. -/
def Obligations.ImageFillsMemory : Prop :=
  ∀ image : List Byte,
    (image.length / 2 ≤ 32768 → ∃ m, loadImage image = some m ∧
      (∀ i, i < image.length / 2 →
        (readCell m i).toNat = (image.getD (2 * i) 0#8).toNat + 256 * (image.getD (2 * i + 1) 0#8).toNat) ∧
      (∀ i, image.length / 2 ≤ i → readCell m i = 0#16)) ∧
    (32768 < image.length / 2 → loadImage image = none)

/-- R24, R109, R110 (decision D22): from every state, every image of at most 32768 cells can be loaded by a reset, and
the reset gives every piece of the machine's state its reset value, with memory equal to the image again; the input not
yet consumed (R26), the sink (log 4) and the parameters (log 3) are unaffected. A longer image is a Load error, and no
reset completes with it (R105, R111). -/
def Obligations.ResetFromAnyState : Prop :=
  ∀ (s : State) (image : List Byte),
    (image.length / 2 ≤ 32768 → ∃ t, envStep (.reset image) s = some t ∧
      loadImage image = some t.mem ∧ (∀ r, t.reg r = 0#16) ∧ t.stack = [] ∧ t.pc = 0#16 ∧ t.run = .running ∧
      t.fault = { cause := .none, pc := 0#16, info := 0#16 } ∧ t.out = [] ∧ t.inp = s.inp ∧ t.inpEnded = s.inpEnded ∧
      t.sinkReady = s.sinkReady ∧ t.cfg = s.cfg) ∧
    (32768 < image.length / 2 → envStep (.reset image) s = none)

/-- R28 (decision D16): no event of the environment but reset touches what the engine owns. -/
def Obligations.EnvironmentLeavesTheEngineAlone : Prop :=
  ∀ (e : EnvEvent) (s t : State), (∀ image, e ≠ .reset image) → envStep e s = some t →
    t = { s with inp := t.inp, inpEnded := t.inpEnded, sinkReady := t.sinkReady }

/-- R19, R20, R27, R95 (decision D9): the status outputs, in every state. `run` is coded 0, 1, 2 and the cause 0 to 9;
`pc` and `info` are those of the record; and in a state that meets the invariant and is not `Faulted` the cause is 0,
no Fault having been taken since reset. -/
def Obligations.StatusOutputsShowRunAndFault : Prop :=
  ∀ s : State,
    (s.run = .running → s.status.run = 0#2) ∧ (s.run = .halted → s.status.run = 1#2) ∧
    (s.run = .faulted → s.status.run = 2#2) ∧
    (s.fault.cause = .none → s.status.cause = 0#4) ∧ (s.fault.cause = .unknownOpcode → s.status.cause = 1#4) ∧
    (s.fault.cause = .stackUnderflow → s.status.cause = 2#4) ∧
    (s.fault.cause = .divideByZero → s.status.cause = 3#4) ∧
    (s.fault.cause = .badDestination → s.status.cause = 4#4) ∧
    (s.fault.cause = .badValueOperand → s.status.cause = 5#4) ∧
    (s.fault.cause = .fetchOutOfRange → s.status.cause = 6#4) ∧
    (s.fault.cause = .memAddressOutOfRange → s.status.cause = 7#4) ∧
    (s.fault.cause = .inputEnd → s.status.cause = 8#4) ∧ (s.fault.cause = .stackOverflow → s.status.cause = 9#4) ∧
    s.status.pc = s.fault.pc ∧ s.status.info = s.fault.info ∧
    (Inv s → s.run ≠ .faulted → s.status.cause = 0#4)

/-- The reset state meets the invariant. -/
def Obligations.ResetMeetsInvariant : Prop := Inv State.reset

/-- Every step keeps the invariant: memory stays canonical (its byte form is log 1), the stack within a finite depth
(D6), the fault record clear until a Fault and then true of the frozen state, in which the condition of the recorded
cause holds before any other of R99, with `info` as R98 says (D2, D3, D8, D9, D10, D14), and `Halted` is at a HALT (D7).
R13, R17, R20, R73, R95, R97 to R100, R108. -/
def Obligations.StepKeepsInvariant : Prop :=
  ∀ s t : State, Inv s → step s = .next t → Inv t

/-- Every event of the environment keeps the invariant: a reset gives a state that meets it (R24, R29), and no other
event touches what it speaks of (R28), but for the input. There it holds in a state faulted by `INPUT_END` because a
character offered after the end of the input is ignored, which is the model's choice (log 6). -/
def Obligations.EnvironmentKeepsInvariant : Prop :=
  ∀ (e : EnvEvent) (s t : State), Inv s → envStep e s = some t → Inv t

/-! ## Operand resolution -/

/-- R65: a literal resolves to itself whatever the registers hold, and a register reference to that register's
contents. -/
def Obligations.ValueOperandsResolve : Prop :=
  (∀ (s : State) (w : Word), w.toNat ≤ 32767 → s.val (decodeSrc w) = .ok w) ∧
  (∀ (s : State) (r : Reg) (x : Word), s.reg r = x → s.val (decodeSrc (BitVec.ofNat 16 (32768 + r.val))) = .ok x)

/-- R61: a destination word gives its register index, and every other word, a literal too, is `BAD_DESTINATION`. -/
def Obligations.DestinationOperandsResolve : Prop :=
  ∀ w : Word,
    (32768 ≤ w.toNat → w.toNat ≤ 32775 → ∃ r : Reg, dst (decodeDst w) = .ok r ∧ r.val = w.toNat - 32768) ∧
    (w.toNat < 32768 ∨ 32775 < w.toNat →
      dst (decodeDst w) = .error { cause := .badDestination, info := w })

/-! ## The step -/

/-- R58: when the cells at `pc` decode to an instruction, the step of a running engine is that instruction's `exec`. -/
def Obligations.StepRunsDecodedInstruction : Prop :=
  ∀ (s : State) (i : Instr) (rest : List Word), s.run = .running →
    decode s.cfg.hasIn (cellsAtPc s) = .ok (i, rest) → step s = exec i s

/-- R52 (with `HAS_IN`, decision D12): an opcode word above 21, or 20 without IN, is `UNKNOWN_OPCODE` with that word,
wherever in memory it stands, before any operand word is looked at. -/
def Obligations.UnknownOpcodeFaults : Prop :=
  ∀ s : State, s.run = .running → s.pc.toNat < 32768 →
    (21 < (readCell s.mem s.pc.toNat).toNat ∨ (readCell s.mem s.pc.toNat = 20#16 ∧ s.cfg.hasIn = false)) →
    step s = .next (s.faultedWith .unknownOpcode (readCell s.mem s.pc.toNat))

/-- R36, R55 (decision D2): an opcode fetch outside memory is `FETCH_OUT_OF_RANGE` with `pc`; a known opcode whose
operand words run past address 32767 is `FETCH_OUT_OF_RANGE` with 32768; there is no wrap-around. -/
def Obligations.FetchOutsideMemoryFaults : Prop :=
  ∀ s : State, s.run = .running →
    (32768 ≤ s.pc.toNat → step s = .next (s.faultedWith .fetchOutOfRange s.pc)) ∧
    (∀ k, s.pc.toNat < 32768 → decode s.cfg.hasIn (cellsAtPc s) = .error (.missingOperand k) →
      step s = .next (s.faultedWith .fetchOutOfRange 32768#16))

/-- A word placed for the next step (log 7) is the instruction that the next step runs. -/
def Obligations.PlacedWordRuns : Prop :=
  ∀ (s : State) (nbits w : Nat) (i : Instr), s.mem.wf = true → s.cfg.hasIn = true →
    decodeTableWord nbits w = some i → step (s.withFetchWord nbits w) = exec i (s.withFetchWord nbits w)

/-! ## Data movement and the stack -/

/-- R68 (words of 32768 and more: decision D4): SET copies the value whole. -/
def Obligations.SetRule : Prop := unaryRule Instr.set 1 fun vb => vb

/-- R69: PUSH appends the whole value, or `STACK_OVERFLOW` at a finite depth. -/
def Obligations.PushRule : Prop :=
  badOperandV Instr.push 2 ∧
  ∀ s a va, s.val a = .ok va →
    ((∀ n, s.cfg.stackDepth = some n → s.stack.length < n) →
      ∃ t, exec (.push a) s = .next t ∧ t.stack = s.stack ++ [va] ∧ t.pc = s.pc + 2#16 ∧ onlyStackAndPc s t) ∧
    (s.cfg.stackDepth = some s.stack.length → exec (.push a) s = .next (s.faultedWith .stackOverflow 0#16))

/-- R70 (words of 32768 and more: decision D4): POP moves the top entry whole into a register, or `STACK_UNDERFLOW`. -/
def Obligations.PopRule : Prop :=
  badOperandD Instr.pop 3 ∧
  (∀ s d rest top, s.stack = rest ++ [top] →
    ∃ t, exec (.pop (.reg d)) s = .next t ∧ t.reg d = top ∧ t.stack = rest ∧ t.pc = s.pc + 2#16 ∧
      onlyRegStackAndPc d s t) ∧
  (∀ s d, s.stack = [] → exec (.pop (.reg d)) s = .next (s.faultedWith .stackUnderflow 0#16))

/-! ## Comparison -/

/-- R71 (all 16 bits: decision D5): EQ writes 1 or 0. -/
def Obligations.EqRule : Prop := binaryRule Instr.eq 4 fun vb vc => if vb = vc then 1 else 0

/-- R72 (all 16 bits: decision D5): GT writes 1 or 0, unsigned and strict. -/
def Obligations.GtRule : Prop := binaryRule Instr.gt 5 fun vb vc => if vc < vb then 1 else 0

/-! ## Control -/

/-- R73, R79: HALT changes only `run` (`pc` stays: decision D7), and NOOP only `pc`. -/
def Obligations.HaltAndNoopRule : Prop :=
  encode .halt = [0#16] ∧ encode .noop = [21#16] ∧
  ∀ s : State, exec .halt s = .next { s with run := .halted } ∧ exec .noop s = .next { s with pc := s.pc + 1#16 }

/-- R74: JMP writes the whole value to `pc` and nothing else. -/
def Obligations.JmpRule : Prop :=
  badOperandV Instr.jmp 6 ∧
  ∀ s a va, s.val a = .ok va → exec (.jmp a) s = .next { s with pc := va }

/-- R75, R76 (the unused target is decoded: decision D11): JT jumps when the whole condition word is not 0, JF when it
is 0, and otherwise `pc` advances by 3. -/
def Obligations.ConditionalJumpRule : Prop :=
  badOperandsVV Instr.jt 7 ∧ badOperandsVV Instr.jf 8 ∧
  ∀ s a b va vb, s.val a = .ok va → s.val b = .ok vb →
    (va ≠ 0#16 → exec (.jt a b) s = .next { s with pc := vb } ∧ exec (.jf a b) s = .next { s with pc := s.pc + 3#16 }) ∧
    (va = 0#16 → exec (.jt a b) s = .next { s with pc := s.pc + 3#16 } ∧ exec (.jf a b) s = .next { s with pc := vb })

/-- R77: CALL pushes the address after it, as a natural number and not reduced modulo 32768, and jumps; or
`STACK_OVERFLOW` at a finite depth. -/
def Obligations.CallRule : Prop :=
  badOperandV Instr.call 17 ∧
  ∀ s a va, s.val a = .ok va →
    ((∀ n, s.cfg.stackDepth = some n → s.stack.length < n) →
      ∃ t ret, exec (.call a) s = .next t ∧ t.stack = s.stack ++ [ret] ∧
        (s.pc.toNat < 32768 → ret.toNat = s.pc.toNat + 2) ∧ ret = s.pc + 2#16 ∧ t.pc = va ∧ onlyStackAndPc s t) ∧
    (s.cfg.stackDepth = some s.stack.length → exec (.call a) s = .next (s.faultedWith .stackOverflow 0#16))

/-- R78: RET pops the top entry whole into `pc`, or `STACK_UNDERFLOW`; it never halts. -/
def Obligations.RetRule : Prop :=
  encode .ret = [18#16] ∧
  (∀ s rest top, s.stack = rest ++ [top] → exec .ret s = .next { s with stack := rest, pc := top }) ∧
  (∀ s, s.stack = [] → exec .ret s = .next (s.faultedWith .stackUnderflow 0#16))

/-- R80: what CALL pushes is what a later RET resumes at, or what POP reads; PUSH and then RET is a jump. -/
def Obligations.CallAndReturnRoundTrip : Prop :=
  (∀ s a va t, s.val a = .ok va → s.stackFull = false → exec (.call a) s = .next t →
    t.regs = s.regs ∧
    (∀ u, u.stack = t.stack → exec .ret u = .next { u with stack := s.stack, pc := s.pc + 2#16 }) ∧
    (∀ u d, u.stack = t.stack → ∃ v, exec (.pop (.reg d)) u = .next v ∧ v.reg d = s.pc + 2#16 ∧ v.stack = s.stack)) ∧
  (∀ s a va t, s.val a = .ok va → s.stackFull = false → exec (.push a) s = .next t →
    exec .ret t = .next { t with stack := s.stack, pc := va })

/-! ## Arithmetic and logic -/

/-- R81: ADD is the natural sum modulo 32768. -/
def Obligations.AddRule : Prop := binaryRule Instr.add 9 fun vb vc => (vb + vc) % 32768

/-- R82: MULT is the natural product modulo 32768. -/
def Obligations.MultRule : Prop := binaryRule Instr.mult 10 fun vb vc => (vb * vc) % 32768

/-- R83: MOD is the natural remainder, and a divisor of 0 is `DIVIDE_BY_ZERO` with nothing written. -/
def Obligations.ModRule : Prop :=
  (∀ a b c, encode (.mod a b c) = [11#16, encodeDst a, encodeSrc b, encodeSrc c]) ∧
  badOperandsDVV Instr.mod ∧
  ∀ s d b c vb vc, s.val b = .ok vb → s.val c = .ok vc →
    (vc ≠ 0#16 → ∃ t, exec (.mod (.reg d) b c) s = .next t ∧ (t.reg d).toNat = vb.toNat % vc.toNat ∧
      t.pc = s.pc + 4#16 ∧ onlyRegAndPc d s t) ∧
    (vc = 0#16 → exec (.mod (.reg d) b c) s = .next (s.faultedWith .divideByZero 0#16))

/-- R84: AND, bit by bit over all 16 bits. -/
def Obligations.AndRule : Prop := binaryRule Instr.and 12 fun vb vc => vb &&& vc

/-- R85: OR, bit by bit over all 16 bits. -/
def Obligations.OrRule : Prop := binaryRule Instr.or 13 fun vb vc => vb ||| vc

/-- R86: NOT complements all 16 bits and clears bit 15, which is 32767 less the low 15 bits of the value. -/
def Obligations.NotRule : Prop := unaryRule Instr.not 14 fun vb => 32767 - vb % 32768

/-- R87: on in-range values each of the eight instructions writes an in-range result and raises no Fault, MOD for a
divisor that is not 0. -/
def Obligations.InRangeValuesGiveInRangeResults : Prop :=
  ∀ (s : State) (d : Reg) (b c : Src) (vb vc : Word), s.val b = .ok vb → s.val c = .ok vc →
    vb.toNat < 32768 → vc.toNat < 32768 → vc ≠ 0#16 →
    (∀ i ∈ [Instr.add (.reg d) b c, .mult (.reg d) b c, .mod (.reg d) b c, .and (.reg d) b c, .or (.reg d) b c,
        .not (.reg d) b, .eq (.reg d) b c, .gt (.reg d) b c],
      ∃ t, exec i s = .next t ∧ (t.reg d).toNat < 32768 ∧ t.run = s.run ∧ t.fault = s.fault) ∧
    (∀ z, s.val z = .ok 0#16 → ∀ i ∈ [Instr.add (.reg d) b z, .mult (.reg d) b z, .and (.reg d) b z, .or (.reg d) b z,
        .eq (.reg d) b z, .gt (.reg d) b z],
      ∃ t, exec i s = .next t ∧ (t.reg d).toNat < 32768 ∧ t.run = s.run ∧ t.fault = s.fault)

/-- R89 (the algebra is the spec's derivation): ADD, MULT, AND and OR commute as instructions; the formulas are
associative, MULT distributes over ADD, adding 32767 subtracts 1, AND and OR are idempotent and NOT relates them by
De Morgan on in-range values. -/
def Obligations.ArithmeticLaws : Prop :=
  (∀ (s : State) (a : Dst) (b c : Src), b.legal = true → c.legal = true →
    exec (.add a b c) s = exec (.add a c b) s ∧ exec (.mult a b c) s = exec (.mult a c b) s ∧
    exec (.and a b c) s = exec (.and a c b) s ∧ exec (.or a b c) s = exec (.or a c b) s) ∧
  (∀ x y z : Word,
    addWord (addWord x y) z = addWord x (addWord y z) ∧ multWord (multWord x y) z = multWord x (multWord y z) ∧
    multWord x (addWord y z) = addWord (multWord x y) (multWord x z) ∧
    andWord (andWord x y) z = andWord x (andWord y z) ∧ orWord (orWord x y) z = orWord x (orWord y z) ∧
    andWord x x = x ∧ orWord x x = x) ∧
  (∀ x y : Word, x.toNat < 32768 → y.toNat < 32768 →
    (0 < x.toNat → (addWord x 32767#16).toNat = x.toNat - 1) ∧ addWord x (addWord (notWord x) 1#16) = 0#16 ∧
    notWord (andWord x y) = orWord (notWord x) (notWord y) ∧ notWord (orWord x y) = andWord (notWord x) (notWord y))

/-- R86, R89, S4: NOT executed twice on one register gives an in-range value back, whatever the state. -/
def Obligations.NotTwiceIsIdentity : Prop :=
  ∀ (s : State) (d : Reg), (s.reg d).toNat < 32768 →
    ∃ t u, exec (.not (.reg d) (.reg d)) s = .next t ∧ exec (.not (.reg d) (.reg d)) t = .next u ∧
      u.reg d = s.reg d ∧ u.pc = s.pc + 6#16 ∧ onlyRegAndPc d s u

/-! ## Memory access -/

/-- R90 (addresses of 32768 and more: decision D3): RMEM copies a whole cell into a register, or
`MEM_ADDRESS_OUT_OF_RANGE`. -/
def Obligations.RmemRule : Prop :=
  (∀ a b, encode (.rmem a b) = [15#16, encodeDst a, encodeSrc b]) ∧
  (∀ s w b, exec (.rmem (.bad w) b) s = .next (s.faultedWith .badDestination w)) ∧
  (∀ s d w, exec (.rmem (.reg d) (.bad w)) s = .next (s.faultedWith .badValueOperand w)) ∧
  ∀ s d b vb, s.val b = .ok vb →
    (vb.toNat < 32768 → ∃ t, exec (.rmem (.reg d) b) s = .next t ∧ t.reg d = readCell s.mem vb.toNat ∧
      t.pc = s.pc + 3#16 ∧ onlyRegAndPc d s t) ∧
    (32768 ≤ vb.toNat → exec (.rmem (.reg d) b) s = .next (s.faultedWith .memAddressOutOfRange vb))

/-- R91 (addresses of 32768 and more: decision D3): WMEM stores the whole value in the cell its first value names and
changes no other byte, or `MEM_ADDRESS_OUT_OF_RANGE`. -/
def Obligations.WmemRule : Prop :=
  badOperandsVV Instr.wmem 16 ∧
  ∀ s a b va vb, s.mem.wf = true → s.val a = .ok va → s.val b = .ok vb →
    (va.toNat < 32768 → ∃ t, exec (.wmem a b) s = .next t ∧ readCell t.mem va.toNat = vb ∧
      (∀ j, j ≠ va.toNat → readCell t.mem j = readCell s.mem j) ∧ t.pc = s.pc + 3#16 ∧
      onlyCellAndPc va.toNat s t) ∧
    (32768 ≤ va.toNat → exec (.wmem a b) s = .next (s.faultedWith .memAddressOutOfRange va))

/-- R45: the fetch of the instruction after a WMEM, and a data read, return the word it wrote; so when the WMEM writes
an opcode word to the address the program counter visits next, that is the opcode the next step decodes, as an opcode
or as an operand word, while the WMEM itself completes as it was fetched. -/
def Obligations.StoreIsSeenByTheNextFetch : Prop :=
  ∀ s a b va vb t, s.mem.wf = true → s.run = .running → s.fetchInstr = .ok (.wmem a b) → s.val a = .ok va →
    s.val b = .ok vb → va.toNat < 32768 → step s = .next t →
      t.fetchCell va.toNat = .ok vb ∧ t.memRead va = .ok vb ∧ t.pc.toNat = s.pc.toNat + 3 ∧
      (∀ k, va.toNat = t.pc.toNat + k → k < 4 → (cellsAtPc t)[k]? = some vb) ∧
      (va.toNat = t.pc.toNat → vb = 21#16 → step t = .next { t with pc := t.pc + 1#16 }) ∧
      (va.toNat = t.pc.toNat → vb = 0#16 → step t = .next { t with run := .halted })

/-! ## Input and output -/

/-- R92: OUT emits the low 8 bits of its value; while the sink is not ready it does not step and the state is unchanged
(R59; a wait as the unchanged state is the model's choice, log 5). -/
def Obligations.OutRule : Prop :=
  badOperandV Instr.out 19 ∧
  ∀ s a va, s.val a = .ok va →
    (s.sinkReady = true → ∃ t b, exec (.out a) s = .next t ∧ t.out = s.out ++ [b] ∧
      b.toNat = va.toNat % 256 ∧ t.pc = s.pc + 2#16 ∧ t = { s with out := t.out, pc := t.pc }) ∧
    (s.sinkReady = false → exec (.out a) s = .next s)

/-- R93 (8 bits, zero-extended: decision D13; the end of input: decision D14): IN moves one character into a register,
waits while none is available (R59; log 5), and faults at the end of the stream with nothing consumed. -/
def Obligations.InRule : Prop :=
  badOperandD Instr.in_ 20 ∧
  ∀ s d,
    (∀ b bs, s.inp = b :: bs → ∃ t, exec (.in_ (.reg d)) s = .next t ∧ (t.reg d).toNat = b.toNat ∧
      t.inp = bs ∧ t.pc = s.pc + 2#16 ∧ t = { s with regs := t.regs, inp := t.inp, pc := t.pc } ∧
      ∀ r, r ≠ d → t.reg r = s.reg r) ∧
    (s.inp = [] → s.inpEnded = false → exec (.in_ (.reg d)) s = .next s) ∧
    (s.inp = [] → s.inpEnded = true → exec (.in_ (.reg d)) s = .next (s.faultedWith .inputEnd 0#16))

/-! ## Rules of the whole machine -/

/-- R58, R66: every step, and every instruction in every state, has an outcome, and it is a next state. That a Fault of
the spec is one is log 8; that in `Halted`, in `Faulted` and in a wait, where R59 says that no step happens, the step
answers the unchanged state is the model's choice (log 5). -/
def Obligations.EveryStepAnswersNext : Prop :=
  (∀ s : State, ∃ t, step s = .next t) ∧ (∀ (i : Instr) (s : State), ∃ t, exec i s = .next t)

/-- R97, R100 (decisions D8, D9): a step that takes a Fault changes nothing but the fault record and `run`: the record
has the program counter of the faulting instruction, which stays, and a cause. -/
def Obligations.FaultsArePrecise : Prop :=
  ∀ s t : State, s.run = .running → step s = .next t → t.run = .faulted →
    ∃ cause info, cause ≠ .none ∧ t = s.faultedWith cause info

/-- R96, R99 (decision D10): an instruction raises only the Faults of its row, and while one of its operand words is bad
the Fault is that operand's, whatever the stack, the divisor, the address or the input. -/
def Obligations.FaultsOfEachInstruction : Prop :=
  ∀ (i : Instr) (s t : State), s.run = .running → exec i s = .next t →
    (t.run = .faulted → ∃ cause info, cause ∈ mayRaise i ∧ t = s.faultedWith cause info) ∧
    (i.legal = false → ∃ info, t = s.faultedWith .badDestination info ∨ t = s.faultedWith .badValueOperand info)

/-- R101: `Halted` and `Faulted` are absorbing: nothing changes in any number of steps, and of the environment's events
only reset leaves them or touches the fault record. -/
def Obligations.OnlyResetLeavesAFinalState : Prop :=
  (∀ (s : State) (k : Nat), s.run ≠ .running → Host.Core.run core k s = .next s) ∧
  (∀ (e : EnvEvent) (s t : State), envStep e s = some t → t.run ≠ s.run ∨ t.fault ≠ s.fault →
    ∃ image, e = .reset image)

/-- R19, R108: a running engine becomes `Halted` exactly when it executes a HALT, and then the fault record is as it
was. -/
def Obligations.HaltedExactlyByHalt : Prop :=
  ∀ s t : State, s.run = .running → step s = .next t →
    (t.run = .halted ↔ s.fetchInstr = .ok .halt) ∧ (t.run = .halted → t = { s with run := .halted })

/-- R63, R14: an instruction with no assignment to `pc` of its own advances it by its length, as a natural number and
never reduced; HALT and a Fault leave it; a wait (log 5) changes nothing. -/
def Obligations.DefaultAdvance : Prop :=
  ∀ (s t : State) (i : Instr), s.run = .running → s.fetchInstr = .ok i → step s = .next t →
    (t.run = .faulted ∨ i = .halt → t.pc = s.pc) ∧
    (waiting s → t = s) ∧
    (assignsPc i = false → t.run ≠ .faulted → ¬ waiting s → t.pc.toNat = s.pc.toNat + i.words)

/-- R12: a step writes no register but the destination of the instruction it executes. -/
def Obligations.OnlyTheDestinationIsWritten : Prop :=
  ∀ (s t : State) (r : Reg), step s = .next t → t.reg r ≠ s.reg r →
    s.run = .running ∧ ∃ i, s.fetchInstr = .ok i ∧ destination i = some r

/-- R15: only PUSH and CALL append an entry, and only POP and RET remove one, the top. -/
def Obligations.StackMovesOnlyAtItsTop : Prop :=
  ∀ s t : State, step s = .next t →
    t.stack = s.stack ∨
    (∃ v, t.stack = s.stack ++ [v] ∧ ∃ a, s.fetchInstr = .ok (.push a) ∨ s.fetchInstr = .ok (.call a)) ∨
    (∃ v, s.stack = t.stack ++ [v] ∧ ((∃ a, s.fetchInstr = .ok (.pop a)) ∨ s.fetchInstr = .ok .ret))

/-- R42 (c): memory changes only by the program's own WMEM, and only in the cell it addresses. -/
def Obligations.MemoryChangesOnlyByWmem : Prop :=
  ∀ (s t : State) (k : Nat), step s = .next t → readByte t.mem k ≠ readByte s.mem k →
    ∃ a b va, s.fetchInstr = .ok (.wmem a b) ∧ s.val a = .ok va ∧ va.toNat < 32768 ∧
      (k = 2 * va.toNat ∨ k = 2 * va.toNat + 1)

/-- R25, R26: a step appends at most one character to the output, and only by OUT; it takes at most one character from
the front of the input, and only by IN. -/
def Obligations.StreamsMoveByOneCharacter : Prop :=
  ∀ s t : State, step s = .next t →
    (t.out = s.out ∨ ∃ b a, t.out = s.out ++ [b] ∧ s.fetchInstr = .ok (.out a)) ∧
    (t.inp = s.inp ∨ ∃ b a, s.inp = b :: t.inp ∧ s.fetchInstr = .ok (.in_ a)) ∧
    t.inpEnded = s.inpEnded ∧ t.sinkReady = s.sinkReady ∧ t.cfg = s.cfg

/-- R66: input that arrives early does not change the result of a step: the step of an engine that is not waiting for
it commutes with the arrival of a character. -/
def Obligations.EarlyInputChangesNoResult : Prop :=
  ∀ (s t : State) (b : Byte), s.inpEnded = false → ¬ waiting s → step s = .next t →
    step { s with inp := s.inp ++ [b] } = .next { t with inp := t.inp ++ [b] }

/-- R59, R107 (decision D15): a waiting engine keeps all state; a waiting IN is ended by the next character, which it
then reads, or by the end of the stream, which faults, and a waiting OUT by the sink. -/
def Obligations.WaitsEndByTheNamedEvent : Prop :=
  ∀ s : State, waiting s →
    step s = .next s ∧
    (∀ d b s', s.fetchInstr = .ok (.in_ (.reg d)) → envStep (.supply b) s = some s' →
      ∃ t, step s' = .next t ∧ (t.reg d).toNat = b.toNat ∧ t.inp = [] ∧ t.pc = s.pc + 2#16) ∧
    (∀ d s', s.fetchInstr = .ok (.in_ (.reg d)) → envStep .endInput s = some s' →
      step s' = .next (s'.faultedWith .inputEnd 0#16)) ∧
    (∀ a va s', s.fetchInstr = .ok (.out a) → s.val a = .ok va → envStep (.sink true) s = some s' →
      ∃ t b, step s' = .next t ∧ t.out = s.out ++ [b] ∧ b.toNat = va.toNat % 256 ∧ t.pc = s.pc + 2#16)
end

