-- ==== Sys2Proof/Laws/Decode.lean ====
section
/-! SUPPORT. The laws of operand words: decoding and encoding undo each other, one operand at a time. -/

namespace Sys2Proof

theorem isRegisterWord_iff {w : Word} : isRegisterWord w = true ↔ 32768 ≤ w.toNat ∧ w.toNat ≤ 32775 := by
  simp [isRegisterWord]

theorem decodeSrc_of_literal {w : Word} (h : w.toNat < 32768) : decodeSrc w = .lit (w.setWidth 15) := by
  simp [decodeSrc, h]

theorem decodeSrc_of_register {w : Word} (h1 : 32768 ≤ w.toNat) (h2 : w.toNat ≤ 32775) :
    decodeSrc w = .reg ⟨w.toNat - 32768, by omega⟩ := by
  have h3 : w.toNat - 32768 < 8 := by omega
  rw [decodeSrc, if_neg (Nat.not_lt.mpr h1), if_pos h2]
  exact congrArg Src.reg (Fin.ext (Nat.mod_eq_of_lt h3))

theorem decodeSrc_of_invalid {w : Word} (h : 32775 < w.toNat) : decodeSrc w = .bad w := by
  have h1 : ¬ w.toNat < 32768 := by omega
  have h2 : ¬ w.toNat ≤ 32775 := by omega
  simp [decodeSrc, h1, h2]

theorem decodeDst_of_register {w : Word} (h1 : 32768 ≤ w.toNat) (h2 : w.toNat ≤ 32775) :
    decodeDst w = .reg ⟨w.toNat - 32768, by omega⟩ := by
  have h3 : w.toNat - 32768 < 8 := by omega
  rw [decodeDst, if_pos ⟨h1, h2⟩]
  exact congrArg Dst.reg (Fin.ext (Nat.mod_eq_of_lt h3))

theorem decodeDst_of_invalid {w : Word} (h : w.toNat < 32768 ∨ 32775 < w.toNat) : decodeDst w = .bad w := by
  have h1 : ¬ (32768 ≤ w.toNat ∧ w.toNat ≤ 32775) := by omega
  simp [decodeDst, h1]

/-- Every word is a literal, a register reference or invalid. -/
theorem word_cases (w : Word) : w.toNat < 32768 ∨ (32768 ≤ w.toNat ∧ w.toNat ≤ 32775) ∨ 32775 < w.toNat := by omega

theorem registerWord_toNat (r : Reg) : (BitVec.ofNat 16 (32768 + r.val)).toNat = 32768 + r.val := by
  have := r.isLt
  simp only [BitVec.toNat_ofNat]
  omega

theorem decodeSrc_registerWord (r : Reg) : decodeSrc (BitVec.ofNat 16 (32768 + r.val)) = .reg r := by
  have := r.isLt
  rw [decodeSrc_of_register (by rw [registerWord_toNat]; omega) (by rw [registerWord_toNat]; omega)]
  refine congrArg _ (Fin.ext ?_)
  simp only [registerWord_toNat]
  omega

theorem decodeDst_registerWord (r : Reg) : decodeDst (BitVec.ofNat 16 (32768 + r.val)) = .reg r := by
  have := r.isLt
  rw [decodeDst_of_register (by rw [registerWord_toNat]; omega) (by rw [registerWord_toNat]; omega)]
  refine congrArg _ (Fin.ext ?_)
  simp only [registerWord_toNat]
  omega

/-- Decoding the word of a well-formed value operand gives it back. -/
theorem decodeSrc_encodeSrc (a : Src) (h : a.wf = true) : decodeSrc (encodeSrc a) = a := by
  cases a with
  | lit v =>
    have hv := v.isLt
    rw [encodeSrc, decodeSrc_of_literal (by simp [BitVec.toNat_setWidth]; omega)]
    congr 1
    apply BitVec.eq_of_toNat_eq
    simp only [BitVec.toNat_setWidth]
    omega
  | reg r => exact decodeSrc_registerWord r
  | bad w => exact decodeSrc_of_invalid (w := w) (by simpa [Src.wf, regTop] using h)

/-- Decoding the word of a well-formed destination operand gives it back. -/
theorem decodeDst_encodeDst (a : Dst) (h : a.wf = true) : decodeDst (encodeDst a) = a := by
  cases a with
  | reg r => exact decodeDst_registerWord r
  | bad w =>
    refine decodeDst_of_invalid (w := w) ?_
    simp only [Dst.wf, isRegisterWord, regBase, regTop, Bool.not_eq_true', Bool.and_eq_false_iff, decide_eq_false_iff_not] at h
    omega

/-- A decoded value operand is well formed. -/
theorem decodeSrc_wf (w : Word) : (decodeSrc w).wf = true := by
  rcases word_cases w with h | ⟨h1, h2⟩ | h
  · rw [decodeSrc_of_literal h]; rfl
  · rw [decodeSrc_of_register h1 h2]; rfl
  · rw [decodeSrc_of_invalid h]; simpa [Src.wf, regTop] using h

/-- A decoded destination operand is well formed. -/
theorem decodeDst_wf (w : Word) : (decodeDst w).wf = true := by
  by_cases h : 32768 ≤ w.toNat ∧ w.toNat ≤ 32775
  · rw [decodeDst_of_register h.1 h.2]; rfl
  · rw [decodeDst_of_invalid (by omega)]
    simp only [Dst.wf, isRegisterWord, regBase, regTop, Bool.not_eq_true', Bool.and_eq_false_iff, decide_eq_false_iff_not]
    omega

/-- Encoding a decoded value operand gives the word back. -/
theorem encodeSrc_decodeSrc (w : Word) : encodeSrc (decodeSrc w) = w := by
  rcases word_cases w with h | ⟨h1, h2⟩ | h
  · rw [decodeSrc_of_literal h]
    apply BitVec.eq_of_toNat_eq
    simp only [encodeSrc, BitVec.toNat_setWidth]
    omega
  · rw [decodeSrc_of_register h1 h2]
    apply BitVec.eq_of_toNat_eq
    simp only [encodeSrc, regBase, BitVec.toNat_ofNat]
    omega
  · rw [decodeSrc_of_invalid h]; rfl

/-- Encoding a decoded destination operand gives the word back. -/
theorem encodeDst_decodeDst (w : Word) : encodeDst (decodeDst w) = w := by
  by_cases h : 32768 ≤ w.toNat ∧ w.toNat ≤ 32775
  · rw [decodeDst_of_register h.1 h.2]
    apply BitVec.eq_of_toNat_eq
    simp only [encodeDst, regBase, BitVec.toNat_ofNat]
    omega
  · rw [decodeDst_of_invalid (by omega)]; rfl

/-- The only value word that decodes as invalid is an invalid word, kept as it is. -/
theorem decodeSrc_eq_bad {w w' : Word} (h : decodeSrc w = .bad w') : w' = w ∧ 32775 < w.toNat := by
  rcases word_cases w with h1 | ⟨h1, h2⟩ | h1
  · rw [decodeSrc_of_literal h1] at h; cases h
  · rw [decodeSrc_of_register h1 h2] at h; cases h
  · rw [decodeSrc_of_invalid h1] at h; cases h; exact ⟨rfl, h1⟩

theorem decodeDst_eq_bad {w w' : Word} (h : decodeDst w = .bad w') :
    w' = w ∧ (w.toNat < 32768 ∨ 32775 < w.toNat) := by
  by_cases h1 : 32768 ≤ w.toNat ∧ w.toNat ≤ 32775
  · rw [decodeDst_of_register h1.1 h1.2] at h; cases h
  · rw [decodeDst_of_invalid (by omega)] at h; cases h; exact ⟨rfl, by omega⟩

/-- A word above 21 is in no row of the opcode map (R52). -/
theorem opcodeForm_of_gt (hasIn : Bool) {op : Word} (h : 21 < op.toNat) : opcodeForm hasIn op = none := by
  unfold opcodeForm
  split <;> first | omega | rfl

/-- What the opcode map does not hold (R52). -/
theorem opcodeForm_eq_none {hasIn : Bool} {op : Word} :
    opcodeForm hasIn op = none ↔ 21 < op.toNat ∨ (op.toNat = 20 ∧ hasIn = false) := by
  constructor
  · intro h
    by_cases h1 : 21 < op.toNat
    · exact .inl h1
    · refine .inr ?_
      unfold opcodeForm at h
      split at h <;> simp_all
      omega
  · rintro (h | ⟨h1, rfl⟩)
    · exact opcodeForm_of_gt hasIn h
    · unfold opcodeForm
      rw [h1]
      rfl

/-- An instruction has at most three operand words (R48). -/
theorem operandCount_le (f : Form) : operandCount f ≤ 3 := by
  cases f <;> simp [operandCount]

/-- The instruction that a row of the opcode map builds is well formed and present, and its encoding is the words it
was built from. -/
theorem encode_buildInstr {hasIn : Bool} {op : Word} {f : Form} {ws : List Word} (hf : opcodeForm hasIn op = some f)
    (hl : ws.length = operandCount f) :
    encode (buildInstr f ws) = op :: ws ∧ (buildInstr f ws).wf = true ∧ (buildInstr f ws).present hasIn = true ∧
      (buildInstr f ws).words = ws.length + 1 := by
  have hop : op = BitVec.ofNat 16 op.toNat := by simp
  unfold opcodeForm at hf
  rcases ws with _ | ⟨w1, _ | ⟨w2, _ | ⟨w3, _ | ⟨w4, ws⟩⟩⟩⟩ <;> split at hf <;> simp at hf <;>
    (try obtain ⟨hI, hf⟩ := hf) <;> (try subst hf) <;> (try (simp [operandCount] at hl; done)) <;>
    (rename_i hopn; clear hl; rw [hop, hopn]) <;>
    simp [buildInstr, Instr.wf, Instr.present, Instr.words, encode, decodeSrc_wf, decodeDst_wf, encodeSrc_decodeSrc,
      encodeDst_decodeDst] <;> assumption

end Sys2Proof
end

