-- ==== Sys2Proof/Laws/Memory.lean ====
section
/-! SUPPORT. The laws of memory: read after write, and that every memory operation keeps the canonical form. -/

namespace Sys2Proof.Machine

theorem joinBytes_toNat (lo hi : Byte) : (joinBytes lo hi).toNat = lo.toNat + 256 * hi.toNat := by
  unfold joinBytes
  rw [BitVec.toNat_append, Nat.shiftLeft_eq, ← Nat.shiftLeft_eq, ← Nat.shiftLeft_add_eq_or_of_lt lo.isLt,
    Nat.shiftLeft_eq]
  omega

theorem lowByte_toNat (w : Word) : (lowByte w).toNat = w.toNat % 256 := by
  simp [lowByte]

theorem highByte_toNat (w : Word) : (highByte w).toNat = w.toNat / 256 := by
  have := w.isLt
  simp [highByte, Nat.shiftRight_eq_div_pow]
  omega

/-- The two halves of a word joined are the word. -/
theorem joinBytes_lowByte_highByte (w : Word) : joinBytes (lowByte w) (highByte w) = w := by
  apply BitVec.eq_of_toNat_eq
  rw [joinBytes_toNat, lowByte_toNat, highByte_toNat]
  omega

theorem unlistedByte_eq : unlistedByte = 0#8 := rfl

@[simp] theorem readByte_nil (k : Nat) : readByte [] k = 0#8 := rfl

@[simp] theorem readCell_nil (a : Nat) : readCell [] a = 0#16 := by
  simp [readCell, joinBytes]

theorem readByte_writeByte_same (m : Memory) (k : Nat) (v : Byte) (lo : Nat) (h : Memory.wfFrom lo m = true) :
    readByte (writeByte m k v) k = v := by
  induction m generalizing lo with
  | nil =>
    by_cases hv : v = 0#8 <;> simp [writeByte, readByte, unlistedByte, hv]
  | cons e m ih =>
    obtain ⟨k', b⟩ := e
    simp only [Memory.wfFrom, Bool.and_eq_true, decide_eq_true_eq] at h
    obtain ⟨⟨⟨-, -⟩, -⟩, hm⟩ := h
    have absent : ∀ (m : Memory) (lo j : Nat), Memory.wfFrom lo m = true → j < lo → readByte m j = unlistedByte := by
      intro m
      induction m with
      | nil => intros; rfl
      | cons e m ih2 =>
        intro lo j h hj
        obtain ⟨k'', b'⟩ := e
        simp only [Memory.wfFrom, Bool.and_eq_true, decide_eq_true_eq] at h
        obtain ⟨⟨⟨h1, -⟩, -⟩, h4⟩ := h
        simp only [readByte]
        rw [if_neg (by omega)]
        exact ih2 (k'' + 1) j h4 (by omega)
    simp only [writeByte]
    split
    · rename_i hlt
      split
      · rename_i hv
        simp only [readByte]
        rw [if_neg (by omega), absent m (k' + 1) k hm (by omega), hv]
      · simp [readByte]
    · split
      · rename_i hk
        split
        · rename_i hv
          rw [hv]
          exact absent m (k' + 1) k hm (by omega)
        · simp [readByte]
      · rename_i h1 h2
        simp only [readByte]
        rw [if_neg (by omega)]
        exact ih (k' + 1) hm

theorem readByte_writeByte_other (m : Memory) {k j : Nat} (v : Byte) (h : j ≠ k) :
    readByte (writeByte m k v) j = readByte m j := by
  induction m with
  | nil =>
    by_cases hv : v = 0#8 <;> simp [writeByte, readByte, unlistedByte, hv, Ne.symm h]
  | cons e m ih =>
    obtain ⟨k', b⟩ := e
    simp only [writeByte]
    split
    · split <;> simp [readByte, Ne.symm h]
    · split
      · rename_i hk
        subst hk
        split <;> simp [readByte, Ne.symm h]
      · simp only [readByte, ih]

theorem writeByte_wfFrom (m : Memory) (lo k : Nat) (v : Byte) (h : Memory.wfFrom lo m = true) (hlo : lo ≤ k)
    (hk : k < 2 * addressSpace) : Memory.wfFrom lo (writeByte m k v) = true := by
  induction m generalizing lo with
  | nil =>
    by_cases hv : v = 0#8 <;> simp [writeByte, Memory.wfFrom, unlistedByte, hv, hlo, hk]
  | cons e m ih =>
    obtain ⟨k', b⟩ := e
    have h' := h
    simp only [Memory.wfFrom, Bool.and_eq_true, decide_eq_true_eq] at h'
    obtain ⟨⟨⟨h1, h2⟩, h3⟩, h4⟩ := h'
    simp only [writeByte]
    split
    · rename_i hlt
      split
      · exact h
      · rename_i hv
        simp only [Memory.wfFrom, Bool.and_eq_true, decide_eq_true_eq]
        exact ⟨⟨⟨hlo, hk⟩, hv⟩, ⟨⟨by omega, h2⟩, h3⟩, h4⟩
    · split
      · rename_i hk'
        subst hk'
        have mono : ∀ (m : Memory) (lo lo' : Nat), lo' ≤ lo → Memory.wfFrom lo m = true → Memory.wfFrom lo' m = true := by
          intro m lo lo' hle hm
          cases m with
          | nil => rfl
          | cons e m =>
            simp only [Memory.wfFrom, Bool.and_eq_true, decide_eq_true_eq] at hm ⊢
            exact ⟨⟨⟨by omega, hm.1.1.2⟩, hm.1.2⟩, hm.2⟩
        split
        · exact mono m (k + 1) lo (by omega) h4
        · rename_i hv
          simp only [Memory.wfFrom, Bool.and_eq_true, decide_eq_true_eq]
          exact ⟨⟨⟨hlo, hk⟩, hv⟩, h4⟩
      · simp only [Memory.wfFrom, Bool.and_eq_true, decide_eq_true_eq]
        exact ⟨⟨⟨h1, h2⟩, h3⟩, ih (k' + 1) h4 (by omega)⟩

/-- A byte write keeps the canonical form. -/
theorem writeByte_wf (m : Memory) (k : Nat) (v : Byte) (h : m.wf = true) (hk : k < 2 * addressSpace) :
    (writeByte m k v).wf = true :=
  writeByte_wfFrom m 0 k v h (Nat.zero_le k) hk

/-- A cell write keeps the canonical form. -/
theorem writeCell_wf (m : Memory) (a : Nat) (w : Word) (h : m.wf = true) (ha : a < addressSpace) :
    (writeCell m a w).wf = true :=
  writeByte_wf _ _ _ (writeByte_wf _ _ _ h (by omega)) (by omega)

/-- A read returns the word last written to the cell (R42). -/
theorem readCell_writeCell_same (m : Memory) (a : Nat) (w : Word) (h : m.wf = true) (ha : a < addressSpace) :
    readCell (writeCell m a w) a = w := by
  unfold readCell writeCell
  rw [readByte_writeByte_other _ _ (by omega), readByte_writeByte_same m _ _ 0 h,
    readByte_writeByte_same _ _ _ 0 (writeByte_wf m (2 * a) _ h (by omega))]
  exact joinBytes_lowByte_highByte w

/-- A cell write leaves every byte outside its cell alone. -/
theorem readByte_writeCell_other (m : Memory) (a : Nat) (w : Word) {k : Nat} (h1 : k ≠ 2 * a)
    (h2 : k ≠ 2 * a + 1) : readByte (writeCell m a w) k = readByte m k := by
  unfold writeCell
  rw [readByte_writeByte_other _ _ h2, readByte_writeByte_other _ _ h1]

/-- A cell write leaves every other cell alone. -/
theorem readCell_writeCell_other (m : Memory) {a j : Nat} (w : Word) (h : j ≠ a) :
    readCell (writeCell m a w) j = readCell m j := by
  unfold readCell
  rw [readByte_writeCell_other m a w (by omega) (by omega), readByte_writeCell_other m a w (by omega) (by omega)]

/-- Placing words keeps the canonical form while they stay in memory. -/
theorem writeCells_wf (ws : List Word) (m : Memory) (a : Nat) (h : m.wf = true) (ha : a + ws.length ≤ addressSpace) :
    (writeCells m a ws).wf = true := by
  induction ws generalizing m a with
  | nil => exact h
  | cons w ws ih =>
    simp only [List.length_cons] at ha
    exact ih _ _ (writeCell_wf m a w h (by omega)) (by omega)

/-- Placing words leaves the cells below alone. -/
theorem readCell_writeCells_below (ws : List Word) (m : Memory) {a j : Nat} (h : j < a) :
    readCell (writeCells m a ws) j = readCell m j := by
  induction ws generalizing m a with
  | nil => rfl
  | cons w ws ih => rw [writeCells, ih _ (by omega), readCell_writeCell_other _ _ (by omega)]

/-- Placed words are read back. -/
theorem readCell_writeCells (ws : List Word) (m : Memory) (a i : Nat) (h : m.wf = true)
    (ha : a + ws.length ≤ addressSpace) (hi : i < ws.length) : readCell (writeCells m a ws) (a + i) = ws[i] := by
  induction ws generalizing m a i with
  | nil => simp at hi
  | cons w ws ih =>
    simp only [List.length_cons] at ha hi
    rw [writeCells]
    cases i with
    | zero =>
      simp only [Nat.add_zero, List.getElem_cons_zero]
      rw [readCell_writeCells_below _ _ (by omega), readCell_writeCell_same m a w h (by omega)]
    | succ i =>
      rw [show a + (i + 1) = (a + 1) + i by omega, ih _ _ i (writeCell_wf m a w h (by omega)) (by omega) (by omega)]
      rfl

/-- The bytes of an image are in canonical form. -/
theorem imageBytes_wfFrom (bs : List Byte) (k lo : Nat) (hlo : lo ≤ k) (h : k + bs.length ≤ 2 * addressSpace) :
    Memory.wfFrom lo (imageBytes k bs) = true := by
  induction bs generalizing k lo with
  | nil => rfl
  | cons b bs ih =>
    simp only [List.length_cons] at h
    simp only [imageBytes]
    split
    · exact ih (k + 1) lo (by omega) (by omega)
    · rename_i hb
      simp only [Memory.wfFrom, Bool.and_eq_true, decide_eq_true_eq]
      exact ⟨⟨⟨hlo, by omega⟩, hb⟩, ih (k + 1) (k + 1) (Nat.le_refl _) (by omega)⟩

theorem readByte_imageBytes_below (bs : List Byte) (k j : Nat) (h : j < k) : readByte (imageBytes k bs) j = 0#8 := by
  induction bs generalizing k with
  | nil => rfl
  | cons b bs ih =>
    simp only [imageBytes]
    split
    · exact ih (k + 1) (by omega)
    · simp only [readByte]
      rw [if_neg (by omega), ih (k + 1) (by omega)]

/-- Byte `i` of an image is at byte address `k + i`, and every byte beyond it is 0. -/
theorem readByte_imageBytes (bs : List Byte) (k i : Nat) : readByte (imageBytes k bs) (k + i) = bs.getD i 0#8 := by
  induction bs generalizing k i with
  | nil => rfl
  | cons b bs ih =>
    cases i with
    | zero =>
      simp only [imageBytes]
      split
      · rename_i hb
        rw [readByte_imageBytes_below _ _ _ (by omega)]
        simp [hb, unlistedByte]
      · simp [readByte]
    | succ i =>
      have := ih (k + 1) i
      rw [show k + 1 + i = k + (i + 1) by omega] at this
      simp only [imageBytes]
      split
      · simpa using this
      · simp only [readByte]
        rw [if_neg (by omega)]
        simpa using this

/-- A loaded image is a memory in canonical form. -/
theorem loadImage_wf (image : List Byte) (m : Memory) (h : loadImage image = some m) : m.wf = true := by
  unfold loadImage at h
  split at h
  · rename_i hl
    cases h
    refine imageBytes_wfFrom _ 0 0 (Nat.le_refl _) ?_
    simp only [List.length_take]
    omega
  · cases h

/-- Memory at reset has the canonical form. -/
theorem reset_mem_wf : State.reset.mem.wf = true := rfl

end Sys2Proof.Machine
end

