-- ==== Sys2Proof/Laws/State.lean ====
section
/-! SUPPORT. The fields of a state after each named update. -/

namespace Sys2Proof.Machine

section SetReg
variable (s : State) (r : Reg) (w : Word)

@[simp] theorem State.setReg_mem : (s.setReg r w).mem = s.mem := rfl
@[simp] theorem State.setReg_stack : (s.setReg r w).stack = s.stack := rfl
@[simp] theorem State.setReg_pc : (s.setReg r w).pc = s.pc := rfl
@[simp] theorem State.setReg_run : (s.setReg r w).run = s.run := rfl
@[simp] theorem State.setReg_fault : (s.setReg r w).fault = s.fault := rfl
@[simp] theorem State.setReg_out : (s.setReg r w).out = s.out := rfl
@[simp] theorem State.setReg_inp : (s.setReg r w).inp = s.inp := rfl
@[simp] theorem State.setReg_inpEnded : (s.setReg r w).inpEnded = s.inpEnded := rfl
@[simp] theorem State.setReg_sinkReady : (s.setReg r w).sinkReady = s.sinkReady := rfl
@[simp] theorem State.setReg_cfg : (s.setReg r w).cfg = s.cfg := rfl

@[simp] theorem State.reg_setReg_same : (s.setReg r w).reg r = w := by
  simp [State.reg, State.setReg]

theorem State.reg_setReg_other {r' : Reg} (h : r' ≠ r) : (s.setReg r w).reg r' = s.reg r' := by
  have h' : r.val ≠ r'.val := fun e => h (Fin.ext e.symm)
  simp [State.reg, State.setReg, h']

end SetReg

section SetPc
variable (s : State) (t : Word)

@[simp] theorem State.setPc_mem : (s.setPc t).mem = s.mem := rfl
@[simp] theorem State.setPc_regs : (s.setPc t).regs = s.regs := rfl
@[simp] theorem State.setPc_stack : (s.setPc t).stack = s.stack := rfl
@[simp] theorem State.setPc_pc : (s.setPc t).pc = t := rfl
@[simp] theorem State.setPc_run : (s.setPc t).run = s.run := rfl
@[simp] theorem State.setPc_fault : (s.setPc t).fault = s.fault := rfl
@[simp] theorem State.setPc_out : (s.setPc t).out = s.out := rfl
@[simp] theorem State.setPc_inp : (s.setPc t).inp = s.inp := rfl
@[simp] theorem State.setPc_inpEnded : (s.setPc t).inpEnded = s.inpEnded := rfl
@[simp] theorem State.setPc_sinkReady : (s.setPc t).sinkReady = s.sinkReady := rfl
@[simp] theorem State.setPc_cfg : (s.setPc t).cfg = s.cfg := rfl
@[simp] theorem State.setPc_reg (r : Reg) : (s.setPc t).reg r = s.reg r := rfl

end SetPc

section Advance
variable (s : State) (n : Nat)

@[simp] theorem State.advance_mem : (s.advance n).mem = s.mem := rfl
@[simp] theorem State.advance_regs : (s.advance n).regs = s.regs := rfl
@[simp] theorem State.advance_stack : (s.advance n).stack = s.stack := rfl
@[simp] theorem State.advance_pc : (s.advance n).pc = s.pc + BitVec.ofNat 16 n := rfl
@[simp] theorem State.advance_run : (s.advance n).run = s.run := rfl
@[simp] theorem State.advance_fault : (s.advance n).fault = s.fault := rfl
@[simp] theorem State.advance_out : (s.advance n).out = s.out := rfl
@[simp] theorem State.advance_inp : (s.advance n).inp = s.inp := rfl
@[simp] theorem State.advance_inpEnded : (s.advance n).inpEnded = s.inpEnded := rfl
@[simp] theorem State.advance_sinkReady : (s.advance n).sinkReady = s.sinkReady := rfl
@[simp] theorem State.advance_cfg : (s.advance n).cfg = s.cfg := rfl
@[simp] theorem State.advance_reg (r : Reg) : (s.advance n).reg r = s.reg r := rfl

/-- Inside memory the advance is the natural sum (R14). -/
theorem State.advance_pc_toNat (h : s.pc.toNat + n < 65536) : (s.advance n).pc.toNat = s.pc.toNat + n := by
  simp [BitVec.toNat_add, Nat.mod_eq_of_lt h]

end Advance

section TakeFault
variable (s : State) (r : Raise)

@[simp] theorem State.takeFault_mem : (s.takeFault r).mem = s.mem := rfl
@[simp] theorem State.takeFault_regs : (s.takeFault r).regs = s.regs := rfl
@[simp] theorem State.takeFault_stack : (s.takeFault r).stack = s.stack := rfl
@[simp] theorem State.takeFault_pc : (s.takeFault r).pc = s.pc := rfl
@[simp] theorem State.takeFault_run : (s.takeFault r).run = .faulted := rfl
@[simp] theorem State.takeFault_fault :
    (s.takeFault r).fault = { cause := r.cause, pc := s.pc, info := r.info } := rfl
@[simp] theorem State.takeFault_out : (s.takeFault r).out = s.out := rfl
@[simp] theorem State.takeFault_inp : (s.takeFault r).inp = s.inp := rfl
@[simp] theorem State.takeFault_inpEnded : (s.takeFault r).inpEnded = s.inpEnded := rfl
@[simp] theorem State.takeFault_sinkReady : (s.takeFault r).sinkReady = s.sinkReady := rfl
@[simp] theorem State.takeFault_cfg : (s.takeFault r).cfg = s.cfg := rfl
@[simp] theorem State.takeFault_reg (d : Reg) : (s.takeFault r).reg d = s.reg d := rfl

end TakeFault

section Halt
variable (s : State)

@[simp] theorem State.halt_mem : s.halt.mem = s.mem := rfl
@[simp] theorem State.halt_regs : s.halt.regs = s.regs := rfl
@[simp] theorem State.halt_stack : s.halt.stack = s.stack := rfl
@[simp] theorem State.halt_pc : s.halt.pc = s.pc := rfl
@[simp] theorem State.halt_run : s.halt.run = .halted := rfl
@[simp] theorem State.halt_fault : s.halt.fault = s.fault := rfl
@[simp] theorem State.halt_out : s.halt.out = s.out := rfl
@[simp] theorem State.halt_inp : s.halt.inp = s.inp := rfl
@[simp] theorem State.halt_inpEnded : s.halt.inpEnded = s.inpEnded := rfl
@[simp] theorem State.halt_sinkReady : s.halt.sinkReady = s.sinkReady := rfl
@[simp] theorem State.halt_cfg : s.halt.cfg = s.cfg := rfl
@[simp] theorem State.halt_reg (r : Reg) : s.halt.reg r = s.reg r := rfl

end Halt

section Emit
variable (s : State) (b : Byte)

@[simp] theorem State.emit_mem : (s.emit b).mem = s.mem := rfl
@[simp] theorem State.emit_regs : (s.emit b).regs = s.regs := rfl
@[simp] theorem State.emit_stack : (s.emit b).stack = s.stack := rfl
@[simp] theorem State.emit_pc : (s.emit b).pc = s.pc := rfl
@[simp] theorem State.emit_run : (s.emit b).run = s.run := rfl
@[simp] theorem State.emit_fault : (s.emit b).fault = s.fault := rfl
@[simp] theorem State.emit_out : (s.emit b).out = s.out ++ [b] := rfl
@[simp] theorem State.emit_inp : (s.emit b).inp = s.inp := rfl
@[simp] theorem State.emit_inpEnded : (s.emit b).inpEnded = s.inpEnded := rfl
@[simp] theorem State.emit_sinkReady : (s.emit b).sinkReady = s.sinkReady := rfl
@[simp] theorem State.emit_cfg : (s.emit b).cfg = s.cfg := rfl
@[simp] theorem State.emit_reg (r : Reg) : (s.emit b).reg r = s.reg r := rfl

end Emit

end Sys2Proof.Machine
end

