-- ==== Sys2Proof/Laws/Operations.lean ====
section
/-! SUPPORT. For each shared operation, one lemma that says everything it can do. -/

namespace Sys2Proof.Machine

/-! ## The end of an instruction and the taking of a Fault -/

/-- Taking a Fault is the state R97 writes out. -/
theorem State.takeFault_eq (s : State) (r : Raise) : s.takeFault r = s.faultedWith r.cause r.info := rfl

@[simp] theorem finish_ok (s t : State) : finish s (.ok t) = .next t := rfl
@[simp] theorem finish_error (s : State) (r : Raise) : finish s (.error r) = .next (s.takeFault r) := rfl

/-- An instruction ends in all its writes or in a Fault taken in the state before it. -/
theorem finish_cases {s t : State} {x : Except Raise State} (h : finish s x = .next t) :
    x = .ok t ∨ ∃ r, x = .error r ∧ t = s.takeFault r := by
  cases x with
  | ok u => simp only [finish_ok, Host.Outcome.next.injEq] at h; exact .inl (by rw [h])
  | error r => simp only [finish_error, Host.Outcome.next.injEq] at h; exact .inr ⟨r, rfl, h.symm⟩

theorem finish_answers_next (s : State) (x : Except Raise State) : ∃ t, finish s x = .next t := by
  cases x with
  | ok t => exact ⟨t, rfl⟩
  | error r => exact ⟨_, rfl⟩

/-! ## Sequencing -/

@[simp] theorem bind_ok {α β : Type} (a : α) (f : α → Except Raise β) : (Except.ok a >>= f) = f a := rfl
@[simp] theorem bind_error {α β : Type} (r : Raise) (f : α → Except Raise β) :
    ((Except.error r : Except Raise α) >>= f) = .error r := rfl

/-- A sequence that completes has completed its first part. -/
theorem bind_eq_ok {α β : Type} {x : Except Raise α} {f : α → Except Raise β} {b : β} :
    (x >>= f) = .ok b ↔ ∃ a, x = .ok a ∧ f a = .ok b := by
  cases x <;> simp

/-- A sequence that faults has faulted in its first part, or after it. -/
theorem bind_eq_error {α β : Type} {x : Except Raise α} {f : α → Except Raise β} {r : Raise} :
    (x >>= f) = .error r ↔ x = .error r ∨ ∃ a, x = .ok a ∧ f a = .error r := by
  cases x <;> simp

/-! ## Operands -/

@[simp] theorem dst_reg (d : Reg) : dst (.reg d) = .ok d := rfl
@[simp] theorem dst_bad (w : Word) : dst (.bad w) = .error { cause := .badDestination, info := w } := rfl
@[simp] theorem State.val_lit (s : State) (v : BitVec 15) : s.val (.lit v) = .ok (v.setWidth 16) := rfl
@[simp] theorem State.val_reg (s : State) (r : Reg) : s.val (.reg r) = .ok (s.reg r) := rfl
@[simp] theorem State.val_bad (s : State) (w : Word) :
    s.val (.bad w) = .error { cause := .badValueOperand, info := w } := rfl

theorem dst_eq_ok {a : Dst} {d : Reg} : dst a = .ok d ↔ a = .reg d := by
  cases a <;> simp

theorem dst_eq_error {a : Dst} {r : Raise} :
    dst a = .error r ↔ a = .bad r.info ∧ r.cause = .badDestination := by
  cases a with
  | reg d => simp
  | bad w =>
    obtain ⟨c, i⟩ := r
    simp [and_comm, eq_comm]

theorem State.val_eq_error {s : State} {a : Src} {r : Raise} :
    s.val a = .error r ↔ a = .bad r.info ∧ r.cause = .badValueOperand := by
  cases a with
  | lit v => simp
  | reg d => simp
  | bad w =>
    obtain ⟨c, i⟩ := r
    simp [and_comm, eq_comm]

/-- A legal value operand resolves. -/
theorem State.val_of_legal (s : State) {a : Src} (h : a.legal = true) : ∃ w, s.val a = .ok w := by
  cases a with
  | lit v => exact ⟨_, rfl⟩
  | reg r => exact ⟨_, rfl⟩
  | bad w => simp [Src.legal] at h

theorem Src.legal_of_val {s : State} {a : Src} {w : Word} (h : s.val a = .ok w) : a.legal = true := by
  cases a with
  | lit v => rfl
  | reg r => rfl
  | bad w => simp at h

/-- Resolution looks at the registers only. -/
theorem State.val_congr {s t : State} (h : t.regs = s.regs) (a : Src) : t.val a = s.val a := by
  cases a <;> simp [State.reg, h]

/-- Stage 4 of format FDV. -/
theorem State.operandsDV_eq_ok {s : State} {a : Dst} {b : Src} {d : Reg} {vb : Word} :
    s.operandsDV a b = .ok (d, vb) ↔ a = .reg d ∧ s.val b = .ok vb := by
  simp [State.operandsDV, bind_eq_ok, dst_eq_ok, pure, Except.pure]

theorem State.operandsDV_eq_error {s : State} {a : Dst} {b : Src} {r : Raise} :
    s.operandsDV a b = .error r ↔ dst a = .error r ∨ (∃ d, a = .reg d) ∧ s.val b = .error r := by
  cases a <;> simp [State.operandsDV, bind_eq_error, pure, Except.pure]

/-- Stage 4 of format FVV. -/
theorem State.operandsVV_eq_ok {s : State} {a b : Src} {va vb : Word} :
    s.operandsVV a b = .ok (va, vb) ↔ s.val a = .ok va ∧ s.val b = .ok vb := by
  simp [State.operandsVV, bind_eq_ok, pure, Except.pure]

theorem State.operandsVV_eq_error {s : State} {a b : Src} {r : Raise} :
    s.operandsVV a b = .error r ↔ s.val a = .error r ∨ (∃ va, s.val a = .ok va) ∧ s.val b = .error r := by
  simp [State.operandsVV, bind_eq_error, pure, Except.pure]

/-- Stage 4 of format FDVV. -/
theorem State.operandsDVV_eq_ok {s : State} {a : Dst} {b c : Src} {d : Reg} {vb vc : Word} :
    s.operandsDVV a b c = .ok (d, vb, vc) ↔ a = .reg d ∧ s.val b = .ok vb ∧ s.val c = .ok vc := by
  simp [State.operandsDVV, bind_eq_ok, dst_eq_ok, pure, Except.pure]

theorem State.operandsDVV_eq_error {s : State} {a : Dst} {b c : Src} {r : Raise} :
    s.operandsDVV a b c = .error r ↔
      dst a = .error r ∨ (∃ d, a = .reg d) ∧ (s.val b = .error r ∨ (∃ vb, s.val b = .ok vb) ∧ s.val c = .error r) := by
  cases a <;> simp [State.operandsDVV, bind_eq_error, pure, Except.pure]

/-- What writing one register by format FDV can do. -/
theorem State.unaryToReg_eq_ok {s t : State} {f : Word → Word} {a : Dst} {b : Src} :
    s.unaryToReg f a b = .ok t ↔
      ∃ d vb, a = .reg d ∧ s.val b = .ok vb ∧ t = (s.setReg d (f vb)).advance 3 := by
  simp [State.unaryToReg, bind_eq_ok, State.operandsDV_eq_ok, pure, Except.pure, and_assoc, eq_comm (a := t)]

theorem State.unaryToReg_eq_error {s : State} {f : Word → Word} {a : Dst} {b : Src} {r : Raise} :
    s.unaryToReg f a b = .error r ↔ dst a = .error r ∨ (∃ d, a = .reg d) ∧ s.val b = .error r := by
  simp [State.unaryToReg, bind_eq_error, State.operandsDV_eq_error, pure, Except.pure]

/-- What writing one register by format FDVV can do. -/
theorem State.binaryToReg_eq_ok {s t : State} {f : Word → Word → Word} {a : Dst} {b c : Src} :
    s.binaryToReg f a b c = .ok t ↔
      ∃ d vb vc, a = .reg d ∧ s.val b = .ok vb ∧ s.val c = .ok vc ∧ t = (s.setReg d (f vb vc)).advance 4 := by
  simp [State.binaryToReg, bind_eq_ok, State.operandsDVV_eq_ok, pure, Except.pure, and_assoc, eq_comm (a := t)]

theorem State.binaryToReg_eq_error {s : State} {f : Word → Word → Word} {a : Dst} {b c : Src} {r : Raise} :
    s.binaryToReg f a b c = .error r ↔
      dst a = .error r ∨ (∃ d, a = .reg d) ∧ (s.val b = .error r ∨ (∃ vb, s.val b = .ok vb) ∧ s.val c = .error r) := by
  simp [State.binaryToReg, bind_eq_error, State.operandsDVV_eq_error, pure, Except.pure]

/-! ## Memory -/

theorem State.fetchCell_of_lt (s : State) {a : Nat} (h : a < 32768) : s.fetchCell a = .ok (readCell s.mem a) := by
  simp [State.fetchCell, h]

theorem State.fetchCell_of_ge (s : State) {a : Nat} (h : 32768 ≤ a) :
    s.fetchCell a = .error { cause := .fetchOutOfRange, info := BitVec.ofNat 16 a } := by
  simp [State.fetchCell, Nat.not_lt.mpr h]

theorem State.fetchCell_eq_ok {s : State} {a : Nat} {w : Word} :
    s.fetchCell a = .ok w ↔ a < 32768 ∧ readCell s.mem a = w := by
  unfold State.fetchCell addressSpace; split <;> simp_all

theorem State.fetchCell_eq_error {s : State} {a : Nat} {r : Raise} :
    s.fetchCell a = .error r ↔ 32768 ≤ a ∧ r = { cause := .fetchOutOfRange, info := BitVec.ofNat 16 a } := by
  unfold State.fetchCell addressSpace
  split
  · simp; omega
  · simp [eq_comm]; omega

theorem State.memRead_eq_ok {s : State} {a w : Word} :
    s.memRead a = .ok w ↔ a.toNat < 32768 ∧ readCell s.mem a.toNat = w := by
  unfold State.memRead addressSpace; split <;> simp_all

theorem State.memRead_eq_error {s : State} {a : Word} {r : Raise} :
    s.memRead a = .error r ↔ 32768 ≤ a.toNat ∧ r = { cause := .memAddressOutOfRange, info := a } := by
  unfold State.memRead addressSpace
  split
  · simp; omega
  · simp [eq_comm]; omega

theorem State.memWrite_eq_ok {s t : State} {a v : Word} :
    s.memWrite a v = .ok t ↔ a.toNat < 32768 ∧ t = { s with mem := writeCell s.mem a.toNat v } := by
  unfold State.memWrite addressSpace; split <;> simp_all [eq_comm]

theorem State.memWrite_eq_error {s : State} {a v : Word} {r : Raise} :
    s.memWrite a v = .error r ↔ 32768 ≤ a.toNat ∧ r = { cause := .memAddressOutOfRange, info := a } := by
  unfold State.memWrite addressSpace
  split
  · simp; omega
  · simp [eq_comm]; omega

/-! ## The stack -/

theorem State.stackFull_eq_true {s : State} :
    s.stackFull = true ↔ ∃ n, s.cfg.stackDepth = some n ∧ n ≤ s.stack.length := by
  unfold State.stackFull; split <;> simp_all

theorem State.stackFull_eq_false {s : State} :
    s.stackFull = false ↔ ∀ n, s.cfg.stackDepth = some n → s.stack.length < n := by
  unfold State.stackFull; split <;> simp_all

theorem State.push_eq_ok {s t : State} {v : Word} :
    s.push v = .ok t ↔ s.stackFull = false ∧ t = { s with stack := s.stack ++ [v] } := by
  cases h : s.stackFull <;> simp [State.push, h, eq_comm (a := t)]

theorem State.push_eq_error {s : State} {v : Word} {r : Raise} :
    s.push v = .error r ↔ s.stackFull = true ∧ r = { cause := .stackOverflow, info := 0 } := by
  cases h : s.stackFull <;> simp [State.push, h, eq_comm (a := r)]

theorem State.pop_eq_ok {s t : State} {w : Word} :
    s.pop = .ok (w, t) ↔ ∃ rest, s.stack = rest ++ [w] ∧ t = { s with stack := rest } := by
  unfold State.pop
  rcases List.eq_nil_or_concat s.stack with h | ⟨rest, top, h⟩
  · simp [h]
  · simp only [h, List.concat_eq_append, List.getLast?_append, List.getLast?_singleton, Option.some_or,
      List.dropLast_concat, Except.ok.injEq, Prod.mk.injEq]
    constructor
    · rintro ⟨rfl, rfl⟩; exact ⟨rest, rfl, rfl⟩
    · rintro ⟨rest', h', rfl⟩
      obtain ⟨rfl, h''⟩ := List.append_inj' h' rfl
      simp at h''
      exact ⟨h'', rfl⟩

theorem State.pop_eq_error {s : State} {r : Raise} :
    s.pop = .error r ↔ s.stack = [] ∧ r = { cause := .stackUnderflow, info := 0 } := by
  unfold State.pop
  rcases List.eq_nil_or_concat s.stack with h | ⟨rest, top, h⟩
  · simp [h, eq_comm]
  · simp [h]

/-! ## The input -/

theorem State.take_eq_char {s t : State} {b : Byte} :
    s.take = .ok (some (b, t)) ↔ ∃ bs, s.inp = b :: bs ∧ t = { s with inp := bs } := by
  unfold State.take
  split
  · rename_i c bs h
    simp [eq_comm, h]
  · rename_i h
    split <;> simp [h]

theorem State.take_eq_wait {s : State} : s.take = .ok none ↔ s.inp = [] ∧ s.inpEnded = false := by
  unfold State.take
  split
  · rename_i h; simp [h]
  · rename_i h; split <;> simp_all

theorem State.take_eq_error {s : State} {r : Raise} :
    s.take = .error r ↔ s.inp = [] ∧ s.inpEnded = true ∧ r = { cause := .inputEnd, info := 0 } := by
  unfold State.take
  split
  · rename_i h; simp [h]
  · rename_i h; cases he : s.inpEnded <;> simp [h, eq_comm (a := r)]

end Sys2Proof.Machine
end

