-- ==== Sys2Proof/Laws/Exec.lean ====
section
/-! SUPPORT. What an instruction can do, said once: the Fault it can end in, and what it leaves when it completes. The
rules of the whole machine follow from these without unfolding a meaning again. -/

namespace Sys2Proof.Machine

/-- Stages 4 and 5 of an instruction: its writes, or the Fault it raises. -/
def effect (s : State) : Instr → Except Raise State
  | .halt => .ok s.halt
  | .set a b => s.unaryToReg id a b
  | .push a => do
    let va ← s.val a
    let t ← s.push va
    return t.advance 2
  | .pop a => do
    let d ← dst a
    let (w, t) ← s.pop
    return (t.setReg d w).advance 2
  | .eq a b c => s.binaryToReg eqWord a b c
  | .gt a b c => s.binaryToReg gtWord a b c
  | .jmp a => do
    let va ← s.val a
    return s.setPc va
  | .jt a b => do
    let (va, vb) ← s.operandsVV a b
    return if isTrueWord va then s.setPc vb else s.advance 3
  | .jf a b => do
    let (va, vb) ← s.operandsVV a b
    return if isTrueWord va then s.advance 3 else s.setPc vb
  | .add a b c => s.binaryToReg addWord a b c
  | .mult a b c => s.binaryToReg multWord a b c
  | .mod a b c => do
    let (d, vb, vc) ← s.operandsDVV a b c
    if vc = 0#16 then .error { cause := .divideByZero, info := 0#16 }
    else return (s.setReg d (modWord vb vc)).advance 4
  | .and a b c => s.binaryToReg andWord a b c
  | .or a b c => s.binaryToReg orWord a b c
  | .not a b => s.unaryToReg notWord a b
  | .rmem a b => do
    let (d, vb) ← s.operandsDV a b
    let w ← s.memRead vb
    return (s.setReg d w).advance 3
  | .wmem a b => do
    let (va, vb) ← s.operandsVV a b
    let t ← s.memWrite va vb
    return t.advance 3
  | .call a => do
    let va ← s.val a
    let t ← s.push (s.pc + 2#16)
    return t.setPc va
  | .ret => do
    let (w, t) ← s.pop
    return t.setPc w
  | .out a => do
    let va ← s.val a
    return if s.sinkReady then (s.emit (lowByte va)).advance 2 else s
  | .in_ a => do
    let d ← dst a
    match ← s.take with
    | none => return s
    | some (b, t) => return (t.setReg d (b.setWidth 16)).advance 2
  | .noop => .ok (s.advance 1)

/-- Every meaning is its effect, committed or turned into a Fault. -/
theorem exec_eq_finish (i : Instr) (s : State) : exec i s = finish s (effect s i) := by
  cases i <;> rfl

/-- The condition under which an instruction stays where it is (R59). -/
def staysWaiting (s : State) (i : Instr) : Prop :=
  (∃ d, i = .in_ (.reg d) ∧ s.inp = [] ∧ s.inpEnded = false) ∨ (∃ a, i = .out a ∧ s.sinkReady = false)

/-- What a completed instruction `i` has done to `s`. -/
structure Completed (s : State) (i : Instr) (t : State) : Prop where
  legal : i.legal = true
  run : (i = .halt ∧ t = s.halt) ∨ (i ≠ .halt ∧ t.run = s.run)
  fault : t.fault = s.fault
  reg : ∀ r, t.reg r ≠ s.reg r → destination i = some r
  mem : t.mem = s.mem ∨
    ∃ a b va vb, i = .wmem a b ∧ s.val a = .ok va ∧ s.val b = .ok vb ∧ va.toNat < 32768 ∧
      t.mem = writeCell s.mem va.toNat vb
  stack : t.stack = s.stack ∨
    (s.stackFull = false ∧ ∃ v, t.stack = s.stack ++ [v] ∧ ∃ a, i = .push a ∨ i = .call a) ∨
    (∃ v, s.stack = t.stack ++ [v] ∧ ((∃ a, i = .pop a) ∨ i = .ret))
  out : t.out = s.out ∨ ∃ b a, t.out = s.out ++ [b] ∧ i = .out a
  inp : t.inp = s.inp ∨ ∃ b a, s.inp = b :: t.inp ∧ i = .in_ a
  inpEnded : t.inpEnded = s.inpEnded
  sinkReady : t.sinkReady = s.sinkReady
  cfg : t.cfg = s.cfg
  pc : (staysWaiting s i ∧ t = s) ∨ (¬ staysWaiting s i ∧ (assignsPc i = false → t.pc = s.pc + BitVec.ofNat 16 i.words))

/-- Writing one register and advancing is a completion of any instruction with that destination and length. -/
theorem completed_of_setReg {s : State} {i : Instr} {d : Reg} (w : Word) (hl : i.legal = true)
    (hd : destination i = some d) (hi : ∀ d, i ≠ .in_ d) (ha : assignsPc i = false) :
    Completed s i ((s.setReg d w).advance i.words) := by
  have hne : i ≠ .halt := by rintro rfl; simp [destination] at hd
  have hno : ∀ a, i ≠ .out a := by rintro a rfl; simp [destination] at hd
  refine { legal := hl, run := .inr ⟨hne, rfl⟩, fault := rfl, reg := ?_, mem := .inl rfl, stack := .inl rfl,
           out := .inl rfl, inp := .inl rfl, inpEnded := rfl, sinkReady := rfl, cfg := rfl, pc := .inr ⟨?_, fun _ => rfl⟩ }
  · intro r hr
    by_contra hc
    rw [hd, Option.some.injEq] at hc
    exact hr (State.reg_setReg_other s d w (Ne.symm hc))
  · rintro (⟨d', h, -⟩ | ⟨a, h, -⟩)
    · exact hi _ h
    · exact hno _ h

/-- What a completed instruction can have done. -/
theorem effect_completed {s t : State} {i : Instr} (h : effect s i = .ok t) : Completed s i t := by
  have stay : ∀ (u : State) (j : Instr), (∀ d, j ≠ .in_ d) → (∀ a, j ≠ .out a) → ¬ staysWaiting s j := by
    rintro u j h1 h2 (⟨d, h, -⟩ | ⟨a, h, -⟩)
    · exact h1 _ h
    · exact h2 _ h
  cases i with
  | set a b =>
    obtain ⟨d, vb, rfl, hb, rfl⟩ := State.unaryToReg_eq_ok.mp h
    exact completed_of_setReg _ (by simp [Instr.legal, Dst.legal, Src.legal_of_val hb]) rfl (by simp) rfl
  | not a b =>
    obtain ⟨d, vb, rfl, hb, rfl⟩ := State.unaryToReg_eq_ok.mp h
    exact completed_of_setReg _ (by simp [Instr.legal, Dst.legal, Src.legal_of_val hb]) rfl (by simp) rfl
  | eq a b c =>
    obtain ⟨d, vb, vc, rfl, hb, hc, rfl⟩ := State.binaryToReg_eq_ok.mp h
    exact completed_of_setReg _ (by simp [Instr.legal, Dst.legal, Src.legal_of_val hb, Src.legal_of_val hc]) rfl (by simp) rfl
  | gt a b c =>
    obtain ⟨d, vb, vc, rfl, hb, hc, rfl⟩ := State.binaryToReg_eq_ok.mp h
    exact completed_of_setReg _ (by simp [Instr.legal, Dst.legal, Src.legal_of_val hb, Src.legal_of_val hc]) rfl (by simp) rfl
  | add a b c =>
    obtain ⟨d, vb, vc, rfl, hb, hc, rfl⟩ := State.binaryToReg_eq_ok.mp h
    exact completed_of_setReg _ (by simp [Instr.legal, Dst.legal, Src.legal_of_val hb, Src.legal_of_val hc]) rfl (by simp) rfl
  | mult a b c =>
    obtain ⟨d, vb, vc, rfl, hb, hc, rfl⟩ := State.binaryToReg_eq_ok.mp h
    exact completed_of_setReg _ (by simp [Instr.legal, Dst.legal, Src.legal_of_val hb, Src.legal_of_val hc]) rfl (by simp) rfl
  | and a b c =>
    obtain ⟨d, vb, vc, rfl, hb, hc, rfl⟩ := State.binaryToReg_eq_ok.mp h
    exact completed_of_setReg _ (by simp [Instr.legal, Dst.legal, Src.legal_of_val hb, Src.legal_of_val hc]) rfl (by simp) rfl
  | or a b c =>
    obtain ⟨d, vb, vc, rfl, hb, hc, rfl⟩ := State.binaryToReg_eq_ok.mp h
    exact completed_of_setReg _ (by simp [Instr.legal, Dst.legal, Src.legal_of_val hb, Src.legal_of_val hc]) rfl (by simp) rfl
  | mod a b c =>
    obtain ⟨⟨d, vb, vc⟩, h1, h2⟩ := bind_eq_ok.mp h
    obtain ⟨rfl, hb, hc⟩ := State.operandsDVV_eq_ok.mp h1
    by_cases hz : vc = 0#16
    · simp only [hz, if_true] at h2
      cases h2
    · simp only [hz, if_false] at h2
      cases h2
      exact completed_of_setReg _ (by simp [Instr.legal, Dst.legal, Src.legal_of_val hb, Src.legal_of_val hc]) rfl (by simp) rfl
  | rmem a b =>
    obtain ⟨⟨d, vb⟩, h1, h2⟩ := bind_eq_ok.mp h
    obtain ⟨rfl, hb⟩ := State.operandsDV_eq_ok.mp h1
    obtain ⟨w, -, h3⟩ := bind_eq_ok.mp h2
    cases h3
    exact completed_of_setReg _ (by simp [Instr.legal, Dst.legal, Src.legal_of_val hb]) rfl (by simp) rfl
  | halt =>
    cases h
    exact { legal := rfl, run := .inl ⟨rfl, rfl⟩, fault := rfl, reg := fun r hr => absurd rfl hr, mem := .inl rfl,
            stack := .inl rfl, out := .inl rfl, inp := .inl rfl, inpEnded := rfl, sinkReady := rfl, cfg := rfl,
            pc := .inr ⟨stay s _ (by simp) (by simp), by simp [assignsPc]⟩ }
  | noop =>
    cases h
    exact { legal := rfl, run := .inr ⟨by simp, rfl⟩, fault := rfl, reg := fun r hr => absurd rfl hr, mem := .inl rfl,
            stack := .inl rfl, out := .inl rfl, inp := .inl rfl, inpEnded := rfl, sinkReady := rfl, cfg := rfl,
            pc := .inr ⟨stay s _ (by simp) (by simp), fun _ => rfl⟩ }
  | jmp a =>
    obtain ⟨va, ha, h2⟩ := bind_eq_ok.mp h
    cases h2
    exact { legal := Src.legal_of_val ha, run := .inr ⟨by simp, rfl⟩, fault := rfl,
            reg := fun r hr => absurd rfl hr, mem := .inl rfl,
            stack := .inl rfl, out := .inl rfl, inp := .inl rfl, inpEnded := rfl, sinkReady := rfl, cfg := rfl,
            pc := .inr ⟨stay s _ (by simp) (by simp), by simp [assignsPc]⟩ }
  | jt a b =>
    obtain ⟨⟨va, vb⟩, h1, h2⟩ := bind_eq_ok.mp h
    obtain ⟨ha, hb⟩ := State.operandsVV_eq_ok.mp h1
    have hl : (Instr.jt a b).legal = true := by simp [Instr.legal, Src.legal_of_val ha, Src.legal_of_val hb]
    by_cases hc : isTrueWord va = true <;> simp only [hc] at h2 <;> cases h2 <;>
    exact { legal := hl, run := .inr ⟨by simp, rfl⟩, fault := rfl, reg := fun r hr => absurd rfl hr, mem := .inl rfl,
            stack := .inl rfl, out := .inl rfl, inp := .inl rfl, inpEnded := rfl, sinkReady := rfl, cfg := rfl,
            pc := .inr ⟨stay s _ (by simp) (by simp), by simp [assignsPc]⟩ }
  | jf a b =>
    obtain ⟨⟨va, vb⟩, h1, h2⟩ := bind_eq_ok.mp h
    obtain ⟨ha, hb⟩ := State.operandsVV_eq_ok.mp h1
    have hl : (Instr.jf a b).legal = true := by simp [Instr.legal, Src.legal_of_val ha, Src.legal_of_val hb]
    by_cases hc : isTrueWord va = true <;> simp only [hc] at h2 <;> cases h2 <;>
    exact { legal := hl, run := .inr ⟨by simp, rfl⟩, fault := rfl, reg := fun r hr => absurd rfl hr, mem := .inl rfl,
            stack := .inl rfl, out := .inl rfl, inp := .inl rfl, inpEnded := rfl, sinkReady := rfl, cfg := rfl,
            pc := .inr ⟨stay s _ (by simp) (by simp), by simp [assignsPc]⟩ }
  | wmem a b =>
    obtain ⟨⟨va, vb⟩, h1, h2⟩ := bind_eq_ok.mp h
    obtain ⟨ha, hb⟩ := State.operandsVV_eq_ok.mp h1
    obtain ⟨u, h3, h4⟩ := bind_eq_ok.mp h2
    obtain ⟨hlt, rfl⟩ := State.memWrite_eq_ok.mp h3
    cases h4
    exact { legal := by simp [Instr.legal, Src.legal_of_val ha, Src.legal_of_val hb], run := .inr ⟨by simp, rfl⟩,
            fault := rfl, reg := fun r hr => absurd rfl hr, mem := .inr ⟨a, b, va, vb, rfl, ha, hb, hlt, rfl⟩,
            stack := .inl rfl, out := .inl rfl, inp := .inl rfl, inpEnded := rfl, sinkReady := rfl, cfg := rfl,
            pc := .inr ⟨stay s _ (by simp) (by simp), fun _ => rfl⟩ }
  | push a =>
    obtain ⟨va, ha, h2⟩ := bind_eq_ok.mp h
    obtain ⟨u, h3, h4⟩ := bind_eq_ok.mp h2
    obtain ⟨hf, rfl⟩ := State.push_eq_ok.mp h3
    cases h4
    exact { legal := Src.legal_of_val ha, run := .inr ⟨by simp, rfl⟩, fault := rfl,
            reg := fun r hr => absurd rfl hr, mem := .inl rfl,
            stack := .inr (.inl ⟨hf, va, rfl, a, .inl rfl⟩), out := .inl rfl, inp := .inl rfl, inpEnded := rfl,
            sinkReady := rfl, cfg := rfl, pc := .inr ⟨stay s _ (by simp) (by simp), fun _ => rfl⟩ }
  | call a =>
    obtain ⟨va, ha, h2⟩ := bind_eq_ok.mp h
    obtain ⟨u, h3, h4⟩ := bind_eq_ok.mp h2
    obtain ⟨hf, rfl⟩ := State.push_eq_ok.mp h3
    cases h4
    exact { legal := Src.legal_of_val ha, run := .inr ⟨by simp, rfl⟩, fault := rfl,
            reg := fun r hr => absurd rfl hr, mem := .inl rfl,
            stack := .inr (.inl ⟨hf, _, rfl, a, .inr rfl⟩), out := .inl rfl, inp := .inl rfl, inpEnded := rfl,
            sinkReady := rfl, cfg := rfl, pc := .inr ⟨stay s _ (by simp) (by simp), by simp [assignsPc]⟩ }
  | pop a =>
    obtain ⟨d, hd, h2⟩ := bind_eq_ok.mp h
    obtain rfl := dst_eq_ok.mp hd
    obtain ⟨⟨w, u⟩, h3, h4⟩ := bind_eq_ok.mp h2
    obtain ⟨rest, hs, rfl⟩ := State.pop_eq_ok.mp h3
    cases h4
    refine { legal := rfl, run := .inr ⟨by simp, rfl⟩, fault := rfl, reg := ?_, mem := .inl rfl,
             stack := .inr (.inr ⟨w, hs, .inl ⟨_, rfl⟩⟩), out := .inl rfl, inp := .inl rfl, inpEnded := rfl,
             sinkReady := rfl, cfg := rfl, pc := .inr ⟨stay s _ (by simp) (by simp), fun _ => rfl⟩ }
    intro r hr
    by_contra hc
    exact hr (State.reg_setReg_other _ d w (fun e => hc (by rw [e]; rfl)))
  | ret =>
    obtain ⟨⟨w, u⟩, h3, h4⟩ := bind_eq_ok.mp h
    obtain ⟨rest, hs, rfl⟩ := State.pop_eq_ok.mp h3
    cases h4
    exact { legal := rfl, run := .inr ⟨by simp, rfl⟩, fault := rfl, reg := fun r hr => absurd rfl hr, mem := .inl rfl,
            stack := .inr (.inr ⟨w, hs, .inr rfl⟩), out := .inl rfl, inp := .inl rfl, inpEnded := rfl,
            sinkReady := rfl, cfg := rfl, pc := .inr ⟨stay s _ (by simp) (by simp), by simp [assignsPc]⟩ }
  | out a =>
    obtain ⟨va, ha, h2⟩ := bind_eq_ok.mp h
    cases hs : s.sinkReady with
    | true =>
      simp only [hs, if_true] at h2
      cases h2
      exact { legal := Src.legal_of_val ha, run := .inr ⟨by simp, rfl⟩, fault := rfl,
              reg := fun r hr => absurd rfl hr, mem := .inl rfl, stack := .inl rfl, out := .inr ⟨_, a, rfl, rfl⟩,
              inp := .inl rfl, inpEnded := rfl, sinkReady := rfl, cfg := rfl,
              pc := .inr ⟨by simp [staysWaiting, hs], fun _ => rfl⟩ }
    | false =>
      simp only [hs] at h2
      cases h2
      exact { legal := Src.legal_of_val ha, run := .inr ⟨by simp, rfl⟩, fault := rfl,
              reg := fun r hr => absurd rfl hr, mem := .inl rfl, stack := .inl rfl, out := .inl rfl,
              inp := .inl rfl, inpEnded := rfl, sinkReady := rfl, cfg := rfl,
              pc := .inl ⟨.inr ⟨a, rfl, hs⟩, rfl⟩ }
  | in_ a =>
    obtain ⟨d, hd, h2⟩ := bind_eq_ok.mp h
    obtain rfl := dst_eq_ok.mp hd
    obtain ⟨o, h3, h4⟩ := bind_eq_ok.mp h2
    cases o with
    | none =>
      cases h4
      exact { legal := rfl, run := .inr ⟨by simp, rfl⟩, fault := rfl, reg := fun r hr => absurd rfl hr,
              mem := .inl rfl, stack := .inl rfl, out := .inl rfl, inp := .inl rfl, inpEnded := rfl,
              sinkReady := rfl, cfg := rfl, pc := .inl ⟨.inl ⟨d, rfl, State.take_eq_wait.mp h3⟩, rfl⟩ }
    | some p =>
      obtain ⟨b, u⟩ := p
      obtain ⟨bs, hi, rfl⟩ := State.take_eq_char.mp h3
      cases h4
      refine { legal := rfl, run := .inr ⟨by simp, rfl⟩, fault := rfl, reg := ?_, mem := .inl rfl,
               stack := .inl rfl, out := .inl rfl, inp := .inr ⟨b, _, hi, rfl⟩, inpEnded := rfl,
               sinkReady := rfl, cfg := rfl, pc := .inr ⟨by simp [staysWaiting, hi], fun _ => rfl⟩ }
      intro r hr
      by_contra hc
      exact hr (State.reg_setReg_other _ d _ (fun e => hc (by rw [e]; rfl)))

/-- The Fault that instruction `i` raises in `s`: of an operand (stage 4), or its own (stage 5) once every operand is
legal. -/
inductive Raised (s : State) (i : Instr) : Raise → Prop where
  | badDestination (w : Word) (h : dstOperand i = some (.bad w)) : Raised s i { cause := .badDestination, info := w }
  | badValueOperand (w : Word) (h : firstBadValue i w) : Raised s i { cause := .badValueOperand, info := w }
  | stackUnderflow (hl : i.legal = true) (hs : s.stack = []) (hi : (∃ a, i = .pop a) ∨ i = .ret) :
      Raised s i { cause := .stackUnderflow, info := 0#16 }
  | stackOverflow (hl : i.legal = true) (hs : s.stackFull = true) (hi : ∃ a, i = .push a ∨ i = .call a) :
      Raised s i { cause := .stackOverflow, info := 0#16 }
  | divideByZero (hl : i.legal = true) (hi : ∃ a b c, i = .mod a b c ∧ s.val c = .ok 0#16) :
      Raised s i { cause := .divideByZero, info := 0#16 }
  | memAddressOutOfRange (w : Word) (hl : i.legal = true) (hw : 32768 ≤ w.toNat)
      (hi : ∃ a, s.val a = .ok w ∧ ((∃ d, i = .rmem d a) ∨ ∃ b, i = .wmem a b)) :
      Raised s i { cause := .memAddressOutOfRange, info := w }
  | inputEnd (hl : i.legal = true) (hs : s.inp = []) (he : s.inpEnded = true) (hi : ∃ a, i = .in_ a) :
      Raised s i { cause := .inputEnd, info := 0#16 }

theorem raised_of_dst {s : State} {i : Instr} {a : Dst} {r : Raise} (hd : dstOperand i = some a) (h : dst a = .error r) :
    Raised s i r := by
  obtain ⟨rfl, hc⟩ := dst_eq_error.mp h
  obtain ⟨c, w⟩ := r
  cases hc
  exact .badDestination w hd

/-- A first bad value operand is a value operand. -/
theorem firstBadValue_mem {i : Instr} {w : Word} (h : firstBadValue i w) : Src.bad w ∈ srcOperands i :=
  List.mem_of_find?_eq_some h.2

/-- A value operand that fails is the first to fail when everything before it is legal. -/
theorem raised_of_val {s : State} {i : Instr} {a : Src} {r : Raise} {pre post : List Src}
    (hd : ∀ w, dstOperand i ≠ some (.bad w)) (hs : srcOperands i = pre ++ a :: post) (hp : ∀ b ∈ pre, b.legal = true)
    (h : s.val a = .error r) : Raised s i r := by
  obtain ⟨rfl, hc⟩ := State.val_eq_error.mp h
  obtain ⟨c, w⟩ := r
  cases hc
  refine .badValueOperand w ⟨hd, ?_⟩
  have hn : pre.find? (fun a => !a.legal) = none := List.find?_eq_none.mpr fun b hb => by simp [hp b hb]
  rw [hs, List.find?_append, hn]
  rfl

/-- The Faults of the operands of format FV. -/
theorem raised_of_operandsV {s : State} {i : Instr} {a : Src} {r : Raise} (hd : dstOperand i = none)
    (hs : srcOperands i = [a]) (h : s.val a = .error r) : Raised s i r :=
  raised_of_val (pre := []) (by simp [hd]) hs (by simp) h

/-- The Faults of the operands of format FDV. -/
theorem raised_of_operandsDV {s : State} {i : Instr} {a : Dst} {b : Src} {r : Raise} (hd : dstOperand i = some a)
    (hs : srcOperands i = [b]) (h : dst a = .error r ∨ (∃ d, a = .reg d) ∧ s.val b = .error r) : Raised s i r := by
  rcases h with h | ⟨⟨d, rfl⟩, h⟩
  · exact raised_of_dst hd h
  · exact raised_of_val (pre := []) (by simp [hd]) hs (by simp) h

/-- The Faults of the operands of format FDVV. -/
theorem raised_of_operandsDVV {s : State} {i : Instr} {a : Dst} {b c : Src} {r : Raise} (hd : dstOperand i = some a)
    (hs : srcOperands i = [b, c])
    (h : dst a = .error r ∨ (∃ d, a = .reg d) ∧ (s.val b = .error r ∨ (∃ vb, s.val b = .ok vb) ∧ s.val c = .error r)) :
    Raised s i r := by
  rcases h with h | ⟨⟨d, rfl⟩, h | ⟨⟨vb, hb⟩, h⟩⟩
  · exact raised_of_dst hd h
  · exact raised_of_val (pre := []) (by simp [hd]) hs (by simp) h
  · exact raised_of_val (pre := [b]) (by simp [hd]) hs (by simp [Src.legal_of_val hb]) h

/-- The Faults of the operands of format FVV. -/
theorem raised_of_operandsVV {s : State} {i : Instr} {a b : Src} {r : Raise} (hd : dstOperand i = none)
    (hs : srcOperands i = [a, b]) (h : s.operandsVV a b = .error r) : Raised s i r := by
  rcases State.operandsVV_eq_error.mp h with h | ⟨⟨va, ha⟩, h⟩
  · exact raised_of_val (pre := []) (by simp [hd]) hs (by simp) h
  · exact raised_of_val (pre := [a]) (by simp [hd]) hs (by simp [Src.legal_of_val ha]) h

/-- Every Fault an instruction can raise, with the condition that raises it. -/
theorem effect_raised {s : State} {i : Instr} {r : Raise} (h : effect s i = .error r) : Raised s i r := by
  cases i with
  | halt => cases h
  | noop => cases h
  | set a b => exact raised_of_operandsDV rfl rfl (State.unaryToReg_eq_error.mp h)
  | not a b => exact raised_of_operandsDV rfl rfl (State.unaryToReg_eq_error.mp h)
  | eq a b c => exact raised_of_operandsDVV rfl rfl (State.binaryToReg_eq_error.mp h)
  | gt a b c => exact raised_of_operandsDVV rfl rfl (State.binaryToReg_eq_error.mp h)
  | add a b c => exact raised_of_operandsDVV rfl rfl (State.binaryToReg_eq_error.mp h)
  | mult a b c => exact raised_of_operandsDVV rfl rfl (State.binaryToReg_eq_error.mp h)
  | and a b c => exact raised_of_operandsDVV rfl rfl (State.binaryToReg_eq_error.mp h)
  | or a b c => exact raised_of_operandsDVV rfl rfl (State.binaryToReg_eq_error.mp h)
  | mod a b c =>
    rcases bind_eq_error.mp h with h | ⟨⟨d, vb, vc⟩, h1, h2⟩
    · exact raised_of_operandsDVV rfl rfl (State.operandsDVV_eq_error.mp h)
    · obtain ⟨rfl, hb, hc⟩ := State.operandsDVV_eq_ok.mp h1
      by_cases hz : vc = 0#16
      · simp only [hz, if_true] at h2
        cases h2
        exact .divideByZero (by simp [Instr.legal, Dst.legal, Src.legal_of_val hb, Src.legal_of_val hc])
          ⟨_, b, c, rfl, by rw [hc, hz]⟩
      · simp only [hz, if_false] at h2
        cases h2
  | jmp a =>
    rcases bind_eq_error.mp h with h | ⟨va, -, h2⟩
    · exact raised_of_operandsV rfl rfl h
    · cases h2
  | out a =>
    rcases bind_eq_error.mp h with h | ⟨va, -, h2⟩
    · exact raised_of_operandsV rfl rfl h
    · cases h2
  | jt a b =>
    rcases bind_eq_error.mp h with h | ⟨va, -, h2⟩
    · exact raised_of_operandsVV rfl rfl h
    · cases h2
  | jf a b =>
    rcases bind_eq_error.mp h with h | ⟨va, -, h2⟩
    · exact raised_of_operandsVV rfl rfl h
    · cases h2
  | push a =>
    rcases bind_eq_error.mp h with h | ⟨va, ha, h2⟩
    · exact raised_of_operandsV rfl rfl h
    · rcases bind_eq_error.mp h2 with h3 | ⟨u, -, h4⟩
      · obtain ⟨hf, rfl⟩ := State.push_eq_error.mp h3
        exact .stackOverflow (Src.legal_of_val ha) hf ⟨a, .inl rfl⟩
      · cases h4
  | call a =>
    rcases bind_eq_error.mp h with h | ⟨va, ha, h2⟩
    · exact raised_of_operandsV rfl rfl h
    · rcases bind_eq_error.mp h2 with h3 | ⟨u, -, h4⟩
      · obtain ⟨hf, rfl⟩ := State.push_eq_error.mp h3
        exact .stackOverflow (Src.legal_of_val ha) hf ⟨a, .inr rfl⟩
      · cases h4
  | pop a =>
    rcases bind_eq_error.mp h with h | ⟨d, hd, h2⟩
    · exact raised_of_dst rfl h
    · obtain rfl := dst_eq_ok.mp hd
      rcases bind_eq_error.mp h2 with h3 | ⟨u, -, h4⟩
      · obtain ⟨hs, rfl⟩ := State.pop_eq_error.mp h3
        exact .stackUnderflow rfl hs (.inl ⟨_, rfl⟩)
      · cases h4
  | ret =>
    rcases bind_eq_error.mp h with h3 | ⟨u, -, h4⟩
    · obtain ⟨hs, rfl⟩ := State.pop_eq_error.mp h3
      exact .stackUnderflow rfl hs (.inr rfl)
    · cases h4
  | rmem a b =>
    rcases bind_eq_error.mp h with h | ⟨⟨d, vb⟩, h1, h2⟩
    · exact raised_of_operandsDV rfl rfl (State.operandsDV_eq_error.mp h)
    · obtain ⟨rfl, hb⟩ := State.operandsDV_eq_ok.mp h1
      rcases bind_eq_error.mp h2 with h3 | ⟨u, -, h4⟩
      · obtain ⟨hw, rfl⟩ := State.memRead_eq_error.mp h3
        exact .memAddressOutOfRange vb (by simp [Instr.legal, Dst.legal, Src.legal_of_val hb]) hw
          ⟨b, hb, .inl ⟨_, rfl⟩⟩
      · cases h4
  | wmem a b =>
    rcases bind_eq_error.mp h with h | ⟨⟨va, vb⟩, h1, h2⟩
    · exact raised_of_operandsVV rfl rfl h
    · obtain ⟨ha, hb⟩ := State.operandsVV_eq_ok.mp h1
      rcases bind_eq_error.mp h2 with h3 | ⟨u, -, h4⟩
      · obtain ⟨hw, rfl⟩ := State.memWrite_eq_error.mp h3
        exact .memAddressOutOfRange va (by simp [Instr.legal, Src.legal_of_val ha, Src.legal_of_val hb]) hw
          ⟨a, ha, .inr ⟨b, rfl⟩⟩
      · cases h4
  | in_ a =>
    rcases bind_eq_error.mp h with h | ⟨d, hd, h2⟩
    · exact raised_of_dst rfl h
    · obtain rfl := dst_eq_ok.mp hd
      rcases bind_eq_error.mp h2 with h3 | ⟨o, -, h4⟩
      · obtain ⟨hs, he, rfl⟩ := State.take_eq_error.mp h3
        exact .inputEnd rfl hs he ⟨_, rfl⟩
      · cases o with
        | none => cases h4
        | some p => cases h4

/-- What an instruction can do: complete, or raise a Fault and change nothing else. -/
theorem exec_cases {s t : State} {i : Instr} (h : exec i s = .next t) :
    Completed s i t ∨ ∃ r, Raised s i r ∧ t = s.takeFault r := by
  rw [exec_eq_finish] at h
  rcases finish_cases h with hok | ⟨r, he, rfl⟩
  · exact .inl (effect_completed hok)
  · exact .inr ⟨r, effect_raised he, rfl⟩

end Sys2Proof.Machine
end

