-- ==== Sys2Proof/Laws/Fetch.lean ====
section
/-! SUPPORT. What the first three stages of a step can do, and the step in terms of them. -/

namespace Sys2Proof.Machine

/-- The words of `n` consecutive cells from address `a` upward. -/
def cellsFrom (m : Memory) (a n : Nat) : List Word := (List.range n).map fun k => readCell m (a + k)

@[simp] theorem cellsFrom_length (m : Memory) (a n : Nat) : (cellsFrom m a n).length = n := by
  simp [cellsFrom]

theorem cellsFrom_succ (m : Memory) (a n : Nat) :
    cellsFrom m a (n + 1) = readCell m a :: cellsFrom m (a + 1) n := by
  simp [cellsFrom, List.range_succ_eq_map, Function.comp_def, Nat.add_assoc, Nat.add_comm 1]

theorem cellsFrom_getD (m : Memory) (a n k : Nat) (h : k < n) : (cellsFrom m a n).getD k 0#16 = readCell m (a + k) := by
  simp [cellsFrom, h]

/-- Operand words inside memory are fetched (R58 stage 3). -/
theorem State.fetchOperands_of_le (s : State) (a n : Nat) (h : a + n ≤ 32768) :
    s.fetchOperands a n = .ok (cellsFrom s.mem a n) := by
  induction n generalizing a with
  | zero => rfl
  | succ n ih =>
    rw [State.fetchOperands, s.fetchCell_of_lt (by omega), bind_ok, ih (a + 1) (by omega), cellsFrom_succ]
    rfl

/-- The first operand word outside memory is the Fault (R55). -/
theorem State.fetchOperands_of_gt (s : State) (a n : Nat) (ha : a ≤ 32768) (h : 32768 < a + n) :
    s.fetchOperands a n = .error { cause := .fetchOutOfRange, info := 32768 } := by
  induction n generalizing a with
  | zero => omega
  | succ n ih =>
    rw [State.fetchOperands]
    by_cases h1 : a < 32768
    · rw [s.fetchCell_of_lt h1, bind_ok, ih (a + 1) (by omega) (by omega)]
      rfl
    · rw [s.fetchCell_of_ge (by omega)]
      have : a = 32768 := by omega
      subst this
      rfl

/-- What stages 1 to 3 give when they complete. -/
theorem State.fetchInstr_eq_ok {s : State} {i : Instr} :
    s.fetchInstr = .ok i ↔ ∃ f, opcodeForm s.cfg.hasIn (readCell s.mem s.pc.toNat) = some f ∧
      s.pc.toNat < 32768 ∧ s.pc.toNat + 1 + operandCount f ≤ 32768 ∧
      i = buildInstr f (cellsFrom s.mem (s.pc.toNat + 1) (operandCount f)) := by
  unfold State.fetchInstr
  by_cases hpc : s.pc.toNat < 32768
  · rw [s.fetchCell_of_lt hpc, bind_ok]
    cases hf : opcodeForm s.cfg.hasIn (readCell s.mem s.pc.toNat) with
    | none => simp
    | some f =>
      by_cases hn : s.pc.toNat + 1 + operandCount f ≤ 32768
      · simp [s.fetchOperands_of_le _ _ hn, hpc, hn, pure, Except.pure, eq_comm (a := i)]
      · simp [s.fetchOperands_of_gt (s.pc.toNat + 1) (operandCount f) (by omega) (by omega), hn]
  · simp [s.fetchCell_of_ge (by omega : 32768 ≤ s.pc.toNat), hpc]

/-- The Faults of stages 1 to 3, in the order of R99. -/
theorem State.fetchInstr_eq_error {s : State} {r : Raise} :
    s.fetchInstr = .error r ↔
      (32768 ≤ s.pc.toNat ∧ r = { cause := .fetchOutOfRange, info := s.pc }) ∨
      (s.pc.toNat < 32768 ∧ opcodeForm s.cfg.hasIn (readCell s.mem s.pc.toNat) = none ∧
        r = { cause := .unknownOpcode, info := readCell s.mem s.pc.toNat }) ∨
      (∃ f, s.pc.toNat < 32768 ∧ opcodeForm s.cfg.hasIn (readCell s.mem s.pc.toNat) = some f ∧
        32768 < s.pc.toNat + 1 + operandCount f ∧ r = { cause := .fetchOutOfRange, info := 32768 }) := by
  unfold State.fetchInstr
  by_cases hpc : s.pc.toNat < 32768
  · rw [s.fetchCell_of_lt hpc, bind_ok]
    have hge : ¬ 32768 ≤ s.pc.toNat := by omega
    cases hf : opcodeForm s.cfg.hasIn (readCell s.mem s.pc.toNat) with
    | none => simp [hpc, hge, eq_comm (a := r)]
    | some f =>
      by_cases hn : s.pc.toNat + 1 + operandCount f ≤ 32768
      · have hn' : ¬ 32768 < s.pc.toNat + 1 + operandCount f := by omega
        simp [s.fetchOperands_of_le _ _ hn, hn', hge, pure, Except.pure]
      · have hn' : 32768 < s.pc.toNat + 1 + operandCount f := by omega
        simp [s.fetchOperands_of_gt (s.pc.toNat + 1) (operandCount f) (by omega) (by omega), hn', hpc, hge,
          eq_comm (a := r)]
  · have hge : 32768 ≤ s.pc.toNat := by omega
    simp [s.fetchCell_of_ge hge, hpc, hge, eq_comm (a := r)]

/-- Fetching looks at memory, `pc` and the parameters only. -/
theorem State.fetchInstr_congr {s t : State} (hm : t.mem = s.mem) (hp : t.pc = s.pc) (hc : t.cfg = s.cfg) :
    t.fetchInstr = s.fetchInstr := by
  have h : ∀ n a, t.fetchOperands a n = s.fetchOperands a n := by
    intro n
    induction n with
    | zero => intro a; rfl
    | succ n ih => intro a; simp only [State.fetchOperands, State.fetchCell, hm, ih]
  simp only [State.fetchInstr, State.fetchCell, hm, hp, hc, h]

/-- A fetched instruction lies whole in memory. -/
theorem State.pc_lt_of_fetchInstr {s : State} {i : Instr} (h : s.fetchInstr = .ok i) : s.pc.toNat < 32768 := by
  obtain ⟨f, -, h1, -⟩ := State.fetchInstr_eq_ok.mp h
  exact h1

/-- What stages 1 to 3 fetch: a well-formed instruction, present in the hardware, lying whole in memory, whose encoding
is the cells at `pc`. -/
theorem encode_of_fetchInstr {s : State} {i : Instr} (h : s.fetchInstr = .ok i) :
    encode i = cellsFrom s.mem s.pc.toNat i.words ∧ i.wf = true ∧ i.present s.cfg.hasIn = true ∧
      s.pc.toNat + i.words ≤ 32768 := by
  obtain ⟨f, hf, hlt, hle, rfl⟩ := State.fetchInstr_eq_ok.mp h
  obtain ⟨h1, h2, h3, h4⟩ := encode_buildInstr hf (cellsFrom_length s.mem (s.pc.toNat + 1) (operandCount f))
  rw [cellsFrom_length] at h4
  refine ⟨?_, h2, h3, by omega⟩
  rw [h1, h4, cellsFrom_succ]

/-! ## The step -/

theorem step_of_not_running {s : State} (h : s.run ≠ .running) : step s = .next s := by
  unfold step
  cases hr : s.run <;> simp_all

theorem step_of_fetch {s : State} {i : Instr} (hr : s.run = .running) (h : s.fetchInstr = .ok i) :
    step s = exec i s := by
  simp [step, hr, h]

theorem step_of_fetch_fault {s : State} {r : Raise} (hr : s.run = .running) (h : s.fetchInstr = .error r) :
    step s = .next (s.takeFault r) := by
  simp [step, hr, h]

/-- What a step can do: nothing in a final state, else the Fault of the fetch or the instruction fetched. -/
theorem step_cases {s t : State} (h : step s = .next t) :
    (s.run ≠ .running ∧ t = s) ∨
    (s.run = .running ∧ ∃ r, s.fetchInstr = .error r ∧ t = s.takeFault r) ∨
    (s.run = .running ∧ ∃ i, s.fetchInstr = .ok i ∧ exec i s = .next t) := by
  by_cases hr : s.run = .running
  · cases hf : s.fetchInstr with
    | ok i => rw [step_of_fetch hr hf] at h; exact .inr (.inr ⟨hr, i, rfl, h⟩)
    | error r =>
      rw [step_of_fetch_fault hr hf, Host.Outcome.next.injEq] at h
      exact .inr (.inl ⟨hr, r, rfl, h.symm⟩)
  · rw [step_of_not_running hr, Host.Outcome.next.injEq] at h
    exact .inl ⟨hr, h.symm⟩

end Sys2Proof.Machine
end

