-- ==== Sys2Proof/Laws/PerInstr.lean ====
section
/-! SUPPORT. Statements made of every instruction as syntax, one lemma for each constructor. -/

namespace Sys2Proof.Laws.EncodedLength

/-- The encoding has as many words as R51 says, from 1 to 4 (R46), and where the instruction is present the decoder's
row of the opcode map has the same length. -/
def Statement (i : Instr) : Prop :=
  (encode i).length = i.words ∧ 1 ≤ i.words ∧ i.words ≤ 4 ∧
    ∀ hasIn, i.present hasIn = true →
      (opcodeForm hasIn ((encode i).getD 0 0#16)).map operandCount = some (i.words - 1)

theorem halt : Statement .halt :=
  ⟨rfl, by simp [Instr.words], by simp [Instr.words], fun _ _ => rfl⟩
theorem set (a : Dst) (b : Src) : Statement (.set a b) :=
  ⟨rfl, by simp [Instr.words], by simp [Instr.words], fun _ _ => rfl⟩
theorem push (a : Src) : Statement (.push a) :=
  ⟨rfl, by simp [Instr.words], by simp [Instr.words], fun _ _ => rfl⟩
theorem pop (a : Dst) : Statement (.pop a) :=
  ⟨rfl, by simp [Instr.words], by simp [Instr.words], fun _ _ => rfl⟩
theorem eq (a : Dst) (b c : Src) : Statement (.eq a b c) :=
  ⟨rfl, by simp [Instr.words], by simp [Instr.words], fun _ _ => rfl⟩
theorem gt (a : Dst) (b c : Src) : Statement (.gt a b c) :=
  ⟨rfl, by simp [Instr.words], by simp [Instr.words], fun _ _ => rfl⟩
theorem jmp (a : Src) : Statement (.jmp a) :=
  ⟨rfl, by simp [Instr.words], by simp [Instr.words], fun _ _ => rfl⟩
theorem jt (a b : Src) : Statement (.jt a b) :=
  ⟨rfl, by simp [Instr.words], by simp [Instr.words], fun _ _ => rfl⟩
theorem jf (a b : Src) : Statement (.jf a b) :=
  ⟨rfl, by simp [Instr.words], by simp [Instr.words], fun _ _ => rfl⟩
theorem add (a : Dst) (b c : Src) : Statement (.add a b c) :=
  ⟨rfl, by simp [Instr.words], by simp [Instr.words], fun _ _ => rfl⟩
theorem mult (a : Dst) (b c : Src) : Statement (.mult a b c) :=
  ⟨rfl, by simp [Instr.words], by simp [Instr.words], fun _ _ => rfl⟩
theorem mod (a : Dst) (b c : Src) : Statement (.mod a b c) :=
  ⟨rfl, by simp [Instr.words], by simp [Instr.words], fun _ _ => rfl⟩
theorem and (a : Dst) (b c : Src) : Statement (.and a b c) :=
  ⟨rfl, by simp [Instr.words], by simp [Instr.words], fun _ _ => rfl⟩
theorem or (a : Dst) (b c : Src) : Statement (.or a b c) :=
  ⟨rfl, by simp [Instr.words], by simp [Instr.words], fun _ _ => rfl⟩
theorem not (a : Dst) (b : Src) : Statement (.not a b) :=
  ⟨rfl, by simp [Instr.words], by simp [Instr.words], fun _ _ => rfl⟩
theorem rmem (a : Dst) (b : Src) : Statement (.rmem a b) :=
  ⟨rfl, by simp [Instr.words], by simp [Instr.words], fun _ _ => rfl⟩
theorem wmem (a b : Src) : Statement (.wmem a b) :=
  ⟨rfl, by simp [Instr.words], by simp [Instr.words], fun _ _ => rfl⟩
theorem call (a : Src) : Statement (.call a) :=
  ⟨rfl, by simp [Instr.words], by simp [Instr.words], fun _ _ => rfl⟩
theorem ret : Statement .ret :=
  ⟨rfl, by simp [Instr.words], by simp [Instr.words], fun _ _ => rfl⟩
theorem out (a : Src) : Statement (.out a) :=
  ⟨rfl, by simp [Instr.words], by simp [Instr.words], fun _ _ => rfl⟩
theorem in_ (a : Dst) : Statement (.in_ a) :=
  ⟨rfl, by simp [Instr.words], by simp [Instr.words], fun hasIn h => by cases (show hasIn = true from h); rfl⟩
theorem noop : Statement .noop :=
  ⟨rfl, by simp [Instr.words], by simp [Instr.words], fun _ _ => rfl⟩

end Sys2Proof.Laws.EncodedLength
end

