-- ==== Sys2Proof/Tests/Slice0.lean ====
section
/-! SUPPORT. The model's own tests. Expected values are those of the spec: words from R47, R49, R50 and R51, and the
vectors of `95_test_vectors.md`, named in each docstring. The last part shows, for every obligation with hypotheses, a
concrete input that meets them. -/

namespace Sys2Proof.Tests

open Sys2Proof Sys2Proof.Machine

/-! ## Small states -/

/-- The reset state with `ws` in the cells from address `a` upward, and `pc` there. -/
def at_ (a : Nat) (ws : List Word) : State :=
  { State.reset with mem := writeCells [] a ws, pc := BitVec.ofNat 16 a }

/-- The reset state with `ws` in the cells from address 0 upward. -/
def cells (ws : List Word) : State := at_ 0 ws

/-- `s` with the registers `r0`, `r1` and `r2`. -/
def regs3 (r0 r1 r2 : Word) (s : State) : State :=
  ((s.setReg 0 r0).setReg 1 r1).setReg 2 r2

/-- A part of the state one step leaves. -/
def look {α : Type} (f : State → α) (s : State) : Option α :=
  match step s with
  | .next t => some (f t)
  | _ => none

/-- Everything a Fault may change, and `pc`. -/
def faultView (s : State) : Word × RunState × FaultCause × Word × Word :=
  (s.pc, s.run, s.fault.cause, s.fault.pc, s.fault.info)

/-! ## Well-formedness refuses ill-formed terms -/

/-- R49: a `bad` value operand below 32776 is refused, at the edges of both valid ranges. -/
theorem test_wf_refuses_value_words :
    ([0#16, 32767#16, 32768#16, 32775#16].all fun w => !(Src.bad w).wf) = true ∧ (Src.bad 32776#16).wf = true := by
  decide

/-- R50: a `bad` destination operand that is a register reference is refused, at both edges. -/
theorem test_wf_refuses_destination_words :
    ([32768#16, 32775#16].all fun w => !(Dst.bad w).wf) = true ∧
    ([0#16, 32767#16, 32776#16, 65535#16].all fun w => (Dst.bad w).wf) = true := by
  decide

theorem test_wf_refuses_data_movement :
    ([Instr.set (.bad 32768) (.lit 0), .set (.reg 0) (.bad 5), .push (.bad 32775), .pop (.bad 32775)].all
      fun i => !i.wf) = true := by
  decide

theorem test_wf_refuses_compare :
    ([Instr.eq (.bad 32768) (.lit 0) (.lit 0), .eq (.reg 0) (.bad 5) (.lit 0), .eq (.reg 0) (.lit 0) (.bad 5),
      .gt (.bad 32768) (.lit 0) (.lit 0), .gt (.reg 0) (.bad 5) (.lit 0), .gt (.reg 0) (.lit 0) (.bad 5)].all
      fun i => !i.wf) = true := by
  decide

theorem test_wf_refuses_control :
    ([Instr.jmp (.bad 5), .jt (.bad 5) (.lit 0), .jt (.lit 0) (.bad 5), .jf (.bad 5) (.lit 0), .jf (.lit 0) (.bad 5),
      .call (.bad 5)].all fun i => !i.wf) = true := by
  decide

theorem test_wf_refuses_arithmetic :
    ([Instr.add (.bad 32768) (.lit 0) (.lit 0), .add (.reg 0) (.bad 5) (.lit 0), .add (.reg 0) (.lit 0) (.bad 5),
      .mult (.bad 32768) (.lit 0) (.lit 0), .mult (.reg 0) (.bad 5) (.lit 0), .mult (.reg 0) (.lit 0) (.bad 5),
      .mod (.bad 32768) (.lit 0) (.lit 0), .mod (.reg 0) (.bad 5) (.lit 0), .mod (.reg 0) (.lit 0) (.bad 5)].all
      fun i => !i.wf) = true := by
  decide

theorem test_wf_refuses_logic :
    ([Instr.and (.bad 32768) (.lit 0) (.lit 0), .and (.reg 0) (.bad 5) (.lit 0), .and (.reg 0) (.lit 0) (.bad 5),
      .or (.bad 32768) (.lit 0) (.lit 0), .or (.reg 0) (.bad 5) (.lit 0), .or (.reg 0) (.lit 0) (.bad 5),
      .not (.bad 32768) (.lit 0), .not (.reg 0) (.bad 5)].all fun i => !i.wf) = true := by
  decide

theorem test_wf_refuses_memory_and_io :
    ([Instr.rmem (.bad 32768) (.lit 0), .rmem (.reg 0) (.bad 5), .wmem (.bad 5) (.lit 0), .wmem (.lit 0) (.bad 5),
      .out (.bad 5), .in_ (.bad 32768)].all fun i => !i.wf) = true := by
  decide

/-! ## Decoding

The words are written out from the encoding: the opcode of R47 in bits 15 to 0, then the operand words. `0x0000` to
`0x7FFF` is a literal, `0x8000` to `0x8007` is `r0` to `r7` (R49, R50). -/

/-- SET r1 1234; PUSH r7; POP r2. -/
theorem test_decode_data_movement :
    decodeTableWord 48 0x04D280010001 = some (.set (.reg 1) (.lit 1234)) ∧
    decodeTableWord 32 0x80070002 = some (.push (.reg 7)) ∧
    decodeTableWord 32 0x80020003 = some (.pop (.reg 2)) := by
  decide

/-- EQ r0 r1 7; GT r3 32767 r4. -/
theorem test_decode_compare :
    decodeTableWord 64 0x0007800180000004 = some (.eq (.reg 0) (.reg 1) (.lit 7)) ∧
    decodeTableWord 64 0x80047FFF80030005 = some (.gt (.reg 3) (.lit 32767) (.reg 4)) := by
  decide

/-- HALT; JMP 3; JT r0 100; JF 1 r5; CALL r3; RET; NOOP. -/
theorem test_decode_control :
    decodeTableWord 16 0x0000 = some .halt ∧
    decodeTableWord 32 0x00030006 = some (.jmp (.lit 3)) ∧
    decodeTableWord 48 0x006480000007 = some (.jt (.reg 0) (.lit 100)) ∧
    decodeTableWord 48 0x800500010008 = some (.jf (.lit 1) (.reg 5)) ∧
    decodeTableWord 32 0x80030011 = some (.call (.reg 3)) ∧
    decodeTableWord 16 0x0012 = some .ret ∧
    decodeTableWord 16 0x0015 = some .noop := by
  decide

/-- ADD r0 r1 r2; MULT r6 200 r7; MOD r0 17 5. -/
theorem test_decode_arithmetic :
    decodeTableWord 64 0x8002800180000009 = some (.add (.reg 0) (.reg 1) (.reg 2)) ∧
    decodeTableWord 64 0x800700C88006000A = some (.mult (.reg 6) (.lit 200) (.reg 7)) ∧
    decodeTableWord 64 0x000500118000000B = some (.mod (.reg 0) (.lit 17) (.lit 5)) := by
  decide

/-- AND r0 12 10; OR r5 r6 1; NOT r0 r1. -/
theorem test_decode_logic :
    decodeTableWord 64 0x000A000C8000000C = some (.and (.reg 0) (.lit 12) (.lit 10)) ∧
    decodeTableWord 64 0x000180068005000D = some (.or (.reg 5) (.reg 6) (.lit 1)) ∧
    decodeTableWord 48 0x80018000000E = some (.not (.reg 0) (.reg 1)) := by
  decide

/-- RMEM r0 9; WMEM 3 21. -/
theorem test_decode_memory_access :
    decodeTableWord 48 0x00098000000F = some (.rmem (.reg 0) (.lit 9)) ∧
    decodeTableWord 48 0x001500030010 = some (.wmem (.lit 3) (.lit 21)) := by
  decide

/-- OUT 72; IN r0. -/
theorem test_decode_io :
    decodeTableWord 32 0x00480013 = some (.out (.lit 72)) ∧
    decodeTableWord 32 0x80000014 = some (.in_ (.reg 0)) := by
  decide

/-- R52: 22 and 256 are no opcodes, 20 is none without IN. -/
theorem test_decode_refuses_by_name :
    decode true [22#16] = .error (.unknownOpcode 22#16) ∧ decode true [256#16] = .error (.unknownOpcode 256#16) ∧
    decode false [20#16, 32768#16] = .error (.unknownOpcode 20#16) ∧ decode true [] = .error .noOpcodeWord ∧
    decode true [1#16, 32768#16] = .error (.missingOperand 1) := by
  refine ⟨?_, ?_, ?_, ?_, ?_⟩ <;> rfl

/-! ## One step of each instruction -/

/-- S11: the zero-byte image halts at once. -/
theorem test_halt : look (fun t => (t.pc, t.run, t.out)) State.reset = some (0#16, .halted, []) := by decide

/-- V-FLT.13: HALT in the last cell. -/
theorem test_halt_last_cell : look (fun t => (t.pc, t.run)) (at_ 32767 [0]) = some (32767#16, .halted) := by decide

/-- V-MOV.3: a word of 32768 and more is copied whole. -/
theorem test_set_whole :
    look (fun t => (t.reg 0, t.pc)) ((cells [1, 32768, 32775]).setReg 7 40000) = some (40000#16, 3#16) := by decide

/-- V-RES.8: a literal is no destination. -/
theorem test_set_literal_destination :
    look faultView (cells [1, 5, 7]) = some (0#16, .faulted, .badDestination, 0#16, 5#16) := by decide

/-- V-MOV.5: the new entry is on top. -/
theorem test_push : look (fun t => (t.stack, t.pc)) { cells [2, 32767] with stack := [1] } =
    some ([1#16, 32767#16], 2#16) := by decide

/-- V-MOV.6: a full stack of finite depth. -/
theorem test_push_full :
    look (fun t => (faultView t, t.stack))
      { cells [2, 5] with stack := [1, 2], cfg := { stackDepth := some 2, hasIn := true } } =
    some ((0#16, .faulted, .stackOverflow, 0#16, 0#16), [1#16, 2#16]) := by decide

/-- V-MOV.7: the top entry. -/
theorem test_pop : look (fun t => (t.reg 2, t.stack, t.pc)) { cells [3, 32770] with stack := [9, 500] } =
    some (500#16, [9#16], 2#16) := by decide

/-- V-MOV.10: the destination is decoded before the stack is looked at. -/
theorem test_pop_bad_destination :
    look faultView (cells [3, 5]) = some (0#16, .faulted, .badDestination, 0#16, 5#16) := by decide

/-- V-CMP.3: the sources are read before the destination is written. -/
theorem test_eq_same_register :
    look (fun t => (t.reg 0, t.pc)) (regs3 123 0 0 (cells [4, 32768, 32768, 32768])) = some (1#16, 4#16) := by decide

/-- V-CMP.4: all 16 bits are compared. -/
theorem test_eq_all_bits :
    look (fun t => t.reg 0) (regs3 9 32768 0 (cells [4, 32768, 32769, 0])) = some 0#16 := by decide

/-- V-CMP.9: unsigned. -/
theorem test_gt_unsigned :
    look (fun t => t.reg 0) (regs3 0 32768 0 (cells [5, 32768, 32769, 32767])) = some 1#16 := by decide

/-- V-CMP.6: strict. -/
theorem test_gt_strict :
    look (fun t => (t.reg 0, t.pc)) (regs3 9 0 0 (cells [5, 32768, 3, 3])) = some (0#16, 4#16) := by decide

/-- V-CTL.4: a target outside memory is taken; only the next fetch faults. -/
theorem test_jmp_outside :
    look (fun t => (t.pc, t.run)) (regs3 0 32768 0 (cells [6, 32769])) = some (32768#16, .running) := by decide

/-- V-CTL.7: any value but 0 is true. -/
theorem test_jt_taken : look (fun t => t.pc) (cells [7, 2, 9]) = some 9#16 := by decide

/-- V-CTL.8: the target of a jump that is not taken is decoded. -/
theorem test_jt_bad_target :
    look faultView (cells [7, 0, 40000]) = some (0#16, .faulted, .badValueOperand, 0#16, 40000#16) := by decide

/-- V-CTL.9: JF jumps on 0. -/
theorem test_jf_taken : look (fun t => t.pc) (cells [8, 32768, 100]) = some 100#16 := by decide

/-- V-CTL.10: JF goes on at any other value. -/
theorem test_jf_not_taken : look (fun t => t.pc) (regs3 5 0 0 (cells [8, 32768, 100])) = some 3#16 := by decide

/-- V-ALU.1: the sum wraps at 32768. -/
theorem test_add_wraps :
    look (fun t => (t.reg 0, t.pc)) (regs3 9 0 0 (cells [9, 32768, 32767, 1])) = some (0#16, 4#16) := by decide

/-- V-ALU.5: the sum is exact before it is reduced. -/
theorem test_add_exact :
    look (fun t => t.reg 0) (regs3 0 65535 65535 (cells [9, 32768, 32769, 32770])) = some 32766#16 := by decide

/-- S3.3. -/
theorem test_mult : look (fun t => t.reg 0) (cells [10, 32768, 200, 200]) = some 7232#16 := by decide

/-- V-ALU.11: the product needs 32 bits. -/
theorem test_mult_wide :
    look (fun t => t.reg 0) (regs3 0 65535 65535 (cells [10, 32768, 32769, 32770])) = some 1#16 := by decide

/-- V-ALU.20: the remainder is not masked. -/
theorem test_mod_whole :
    look (fun t => t.reg 0) (regs3 0 40000 50000 (cells [11, 32768, 32769, 32770])) = some 40000#16 := by decide

/-- V-ALU.18: a divisor of 0. -/
theorem test_mod_zero :
    look (fun t => (faultView t, t.reg 0)) (regs3 9 0 0 (cells [11, 32768, 17, 0])) =
    some ((0#16, .faulted, .divideByZero, 0#16, 0#16), 9#16) := by decide

/-- V-ALU.24: AND keeps bit 15. -/
theorem test_and_bit15 :
    look (fun t => t.reg 0) (regs3 0 32769 32771 (cells [12, 32768, 32769, 32770])) = some 32769#16 := by decide

/-- V-ALU.26. -/
theorem test_or : look (fun t => (t.reg 0, t.pc)) (cells [13, 32768, 21845, 10922]) = some (32767#16, 4#16) := by decide

/-- V-ALU.31. -/
theorem test_not : look (fun t => (t.reg 0, t.pc)) (cells [14, 32768, 21845]) = some (10922#16, 3#16) := by decide

/-- V-ALU.32: NOT clears bit 15 whatever it was. -/
theorem test_not_masks :
    look (fun t => t.reg 0) (regs3 0 32768 0 (cells [14, 32768, 32769])) = some 32767#16 := by decide

/-- V-MEM.3: the address is the old value of the destination. -/
theorem test_rmem_same_register :
    look (fun t => (t.reg 0, t.pc)) (regs3 1 0 0 (cells [15, 32768, 32768])) = some (32768#16, 3#16) := by decide

/-- V-MEM.5: address 32768. -/
theorem test_rmem_outside :
    look (fun t => (faultView t, t.reg 0)) (regs3 7 32768 0 (cells [15, 32768, 32769])) =
    some ((0#16, .faulted, .memAddressOutOfRange, 0#16, 32768#16), 7#16) := by decide

/-- V-MEM.9: WMEM over its own opcode cell. -/
theorem test_wmem_own_opcode :
    look (fun t => (readCell t.mem 0, readCell t.mem 1, readCell t.mem 2, t.pc)) (cells [16, 0, 21]) =
    some (21#16, 0#16, 21#16, 3#16) := by decide

/-- V-MEM.10: the highest address. -/
theorem test_wmem_last_cell :
    look (fun t => (readCell t.mem 32767, readCell t.mem 0)) (cells [16, 32767, 7]) = some (7#16, 16#16) := by decide

/-- V-CTL.15: the return address 32768 is pushed whole. -/
theorem test_call_last_cells :
    look (fun t => (t.stack, t.pc)) (at_ 32766 [17, 5]) = some ([32768#16], 5#16) := by decide

/-- V-CTL.14: CALL on a full stack. -/
theorem test_call_full :
    look (fun t => (faultView t, t.stack))
      { cells [17, 50] with stack := [1], cfg := { stackDepth := some 1, hasIn := true } } =
    some ((0#16, .faulted, .stackOverflow, 0#16, 0#16), [1#16]) := by decide

/-- V-CTL.16. -/
theorem test_ret : look (fun t => (t.stack, t.pc)) { at_ 60 [18] with stack := [12] } = some ([], 12#16) := by decide

/-- V-CTL.18: RET on an empty stack. -/
theorem test_ret_empty :
    look faultView (cells [18]) = some (0#16, .faulted, .stackUnderflow, 0#16, 0#16) := by decide

/-- V-IO.2: OUT 328. -/
theorem test_out_low_byte : look (fun t => (t.out, t.pc)) (cells [19, 328]) = some ([72#8], 2#16) := by decide

/-- R59: OUT does not step while the sink is not ready. -/
theorem test_out_waits :
    look (fun t => (t.out, t.pc, t.run)) { cells [19, 72] with sinkReady := false } =
    some ([], 0#16, .running) := by decide

/-- V-IO.8: one character, zero-extended. -/
theorem test_in : look (fun t => (t.reg 0, t.inp, t.pc)) { cells [20, 32768] with inp := [255, 65] } =
    some (255#16, [65#8], 2#16) := by decide

/-- V-IO.12: the destination is decoded before any wait. -/
theorem test_in_bad_destination :
    look faultView (cells [20, 3]) = some (0#16, .faulted, .badDestination, 0#16, 3#16) := by decide

/-- V-FLT.12: NOOP in the last cell leaves `pc` = 32768, no wrap. -/
theorem test_noop_last_cell : look (fun t => (t.pc, t.run)) (at_ 32767 [21]) = some (32768#16, .running) := by decide

/-! ## Fetching, loading -/

/-- V-FLT.14, V-FLT.5, V-FLT.10: the order of the Faults of stages 1 to 3. -/
theorem test_fetch_faults :
    look faultView { State.reset with pc := 40000 } = some (40000#16, .faulted, .fetchOutOfRange, 40000#16, 40000#16) ∧
    look faultView (at_ 32767 [22]) = some (32767#16, .faulted, .unknownOpcode, 32767#16, 22#16) ∧
    look faultView (at_ 32766 [1, 5]) = some (32766#16, .faulted, .fetchOutOfRange, 32766#16, 32768#16) :=
  ⟨by decide, by decide, by decide⟩

/-- S12.2 and S12.3: the image's byte order, and its odd last byte. -/
theorem test_image :
    (loadImage [0x00, 0x80, 0x07, 0x80, 0xff, 0x7f, 0xff, 0xff]).map
      (fun m => (readCell m 0, readCell m 1, readCell m 2, readCell m 3, readCell m 4)) =
      some (32768#16, 32775#16, 32767#16, 65535#16, 0#16) ∧
    (loadImage [0x15, 0x00, 0x12]).map (fun m => (readCell m 0, readCell m 1)) = some (21#16, 0#16) := by
  decide

/-- A word placed for the next step runs: OUT 72 from the reset state. -/
theorem test_placed_word : look (fun t => t.out) (State.reset.withFetchWord 32 0x00480013) = some [72#8] := by decide

/-! ## Witnesses: a concrete input meets the hypotheses of each obligation

A witness has the name of its obligation. Where the obligation has clauses over ranges, the values are the ends of the
ranges. -/

theorem witness_DestinationWordsClassified :
    (∀ w ∈ [32768#16, 32775#16], 32768 ≤ w.toNat ∧ w.toNat ≤ 32775) ∧
    (∀ w ∈ [0#16, 32767#16, 32776#16, 65535#16], w.toNat < 32768 ∨ 32775 < w.toNat) ∧
    decodeDst 32768#16 = .reg 0 ∧ decodeDst 32775#16 = .reg 7 ∧ decodeDst 32767#16 = .bad 32767#16 ∧
    decodeDst 32776#16 = .bad 32776#16 :=
  ⟨by simp, by simp, by decide, by decide, by decide, by decide⟩

theorem witness_ValueWordsClassified :
    (∀ w ∈ [0#16, 32767#16], w.toNat < 32768) ∧ (∀ w ∈ [32768#16, 32775#16], 32768 ≤ w.toNat ∧ w.toNat ≤ 32775) ∧
    (∀ w ∈ [32776#16, 65535#16], 32775 < w.toNat) ∧
    decodeSrc 32767#16 = .lit 32767 ∧ decodeSrc 32768#16 = .reg 0 ∧ decodeSrc 32775#16 = .reg 7 ∧
    decodeSrc 32776#16 = .bad 32776#16 :=
  ⟨by simp, by simp, by simp, by decide, by decide, by decide, by decide⟩

theorem witness_DecodeOfEncode :
    (∀ i ∈ [Instr.add (.reg 7) (.lit 32767) (.bad 32776), .in_ (.bad 32767), .halt],
      i.wf = true ∧ i.present true = true) ∧
    (Instr.noop).wf = true ∧ (Instr.noop).present false = true := by
  decide

theorem witness_EncodeOfDecode :
    decode true [20#16, 3#16, 9#16] = .ok (.in_ (.bad 3#16), [9#16]) ∧
    decode false [1#16, 32768#16, 40000#16] = .ok (.set (.reg 0) (.bad 40000#16), []) :=
  ⟨rfl, rfl⟩

/-- One opcode of each length, and the first unknown one. -/
theorem witness_LengthFollowsFromOpcode :
    decode true [21#16] = .ok (.noop, []) ∧ decode true [2#16, 5#16] = .ok (.push (.lit 5), []) ∧
    decode true [16#16, 3#16, 21#16] = .ok (.wmem (.lit 3) (.lit 21), []) ∧
    decode true [9#16, 32768#16, 1#16, 2#16, 3#16] = .ok (.add (.reg 0) (.lit 1) (.lit 2), [3#16]) ∧
    21 < (22#16).toNat :=
  ⟨rfl, rfl, rfl, rfl, by decide⟩

/-- The lengths 0, 3 and 65537 load; 65538 is one cell too many. -/
theorem witness_ImageFillsMemory :
    ([] : List Byte).length / 2 ≤ 32768 ∧ ([0x15, 0x00, 0x12] : List Byte).length / 2 ≤ 32768 ∧
    (List.replicate 65537 0#8).length / 2 ≤ 32768 ∧ 32768 < (List.replicate 65538 0#8).length / 2 := by
  refine ⟨by decide, by decide, ?_, ?_⟩ <;> simp only [List.length_replicate] <;> decide

/-- The largest images that load, the smallest that does not, and a faulted machine, with input left over, that is
reset with an image of one cell. -/
theorem witness_ResetFromAnyState :
    (List.replicate 65537 0#8).length / 2 ≤ 32768 ∧ 32768 < (List.replicate 65538 0#8).length / 2 ∧
    ∃ t, envStep (.reset [0x15, 0x00]) { (cells [22]).faultedWith .unknownOpcode 22 with inp := [65] } = some t ∧
      readCell t.mem 0 = 21#16 ∧ t.inp = [65#8] :=
  ⟨by simp only [List.length_replicate]; decide, by simp only [List.length_replicate]; decide,
    _, rfl, by decide, by decide⟩

theorem witness_EnvironmentLeavesTheEngineAlone :
    (∀ image, EnvEvent.supply 65 ≠ .reset image) ∧ (envStep (.supply 65) (cells [20, 32768])).isSome = true ∧
    (∀ image, EnvEvent.endInput ≠ .reset image) ∧ (envStep .endInput (cells [20, 32768])).isSome = true ∧
    (∀ image, EnvEvent.sink false ≠ .reset image) ∧ (envStep (.sink false) (cells [19, 72])).isSome = true :=
  ⟨nofun, by decide, nofun, by decide, nofun, by decide⟩

/-- Every run state, each cause by the state that records it, and a running and a halted state that meet the
invariant. -/
theorem witness_StatusOutputsShowRunAndFault :
    State.reset.run = .running ∧ State.reset.halt.run = .halted ∧
    (State.reset.faultedWith .inputEnd 0).run = .faulted ∧ State.reset.fault.cause = .none ∧
    (∀ c, (State.reset.faultedWith c 0).fault.cause = c) ∧ (Inv (cells [21]) ∧ (cells [21]).run ≠ .faulted) ∧
    (Inv (at_ 32767 [0]).halt ∧ (at_ 32767 [0]).halt.run ≠ .faulted) :=
  ⟨rfl, rfl, rfl, rfl, fun _ => rfl,
    ⟨{ memory := by decide
       stackFits := nofun
       recordClear := fun _ => rfl
       recordOfFault := nofun
       haltedAtHalt := nofun }, nofun⟩,
    { memory := by decide
      stackFits := nofun
      recordClear := fun _ => rfl
      recordOfFault := nofun
      haltedAtHalt := fun _ => by decide }, nofun⟩

/-- A running state that meets the invariant, with memory listed and a stack full to its finite depth. -/
def fullStack : State :=
  { cells [2, 5] with stack := [1, 2], cfg := { stackDepth := some 2, hasIn := true } }

theorem fullStack_inv : Inv fullStack :=
  { memory := by decide
    stackFits := by intro n h; cases h; decide
    recordClear := fun _ => rfl
    recordOfFault := nofun
    haltedAtHalt := nofun }

/-- The invariant holds before a step that faults, and the step answers a next state. -/
theorem witness_StepKeepsInvariant :
    Inv fullStack ∧ step fullStack = .next (fullStack.faultedWith .stackOverflow 0) :=
  ⟨fullStack_inv, rfl⟩

/-- A faulted state that meets the invariant, and an event. -/
theorem witness_EnvironmentKeepsInvariant :
    Inv (fullStack.faultedWith .stackOverflow 0) ∧
    (envStep .endInput (fullStack.faultedWith .stackOverflow 0)).isSome = true :=
  ⟨{ memory := by decide
     stackFits := by intro n h; cases h; decide
     recordClear := fun h => absurd rfl h
     recordOfFault := fun _ => ⟨rfl, rfl, rfl, .lit 5, rfl, .inl (by rfl)⟩
     haltedAtHalt := nofun }, by decide⟩

theorem witness_ValueOperandsResolve :
    (∀ w ∈ [0#16, 32767#16], w.toNat ≤ 32767) ∧ (regs3 9 40000 0 State.reset).reg 1 = 40000#16 ∧
    (State.reset.setReg 7 65535).reg 7 = 65535#16 :=
  ⟨by simp, by decide, by decide⟩

theorem witness_DestinationOperandsResolve :
    (∀ w ∈ [32768#16, 32775#16], 32768 ≤ w.toNat ∧ w.toNat ≤ 32775) ∧
    (∀ w ∈ [0#16, 32767#16, 32776#16, 65535#16], w.toNat < 32768 ∨ 32775 < w.toNat) :=
  ⟨by simp, by simp⟩

/-- A four-word instruction at 0 and a one-word one in the last cell. -/
theorem witness_StepRunsDecodedInstruction :
    decode true (cellsAtPc (cells [9, 32768, 1, 2])) = .ok (.add (.reg 0) (.lit 1) (.lit 2), []) ∧
    decode true (cellsAtPc (at_ 32767 [21])) = .ok (.noop, []) ∧
    (cells [9, 32768, 1, 2]).run = .running ∧ (at_ 32767 [21]).run = .running :=
  ⟨by rfl, by rfl, rfl, rfl⟩

/-- The word 22 in the last cell, and 20 without IN. -/
theorem witness_UnknownOpcodeFaults :
    ((at_ 32767 [22]).run = .running ∧ (at_ 32767 [22]).pc.toNat < 32768 ∧
      21 < (readCell (at_ 32767 [22]).mem (at_ 32767 [22]).pc.toNat).toNat) ∧
    (∃ s : State, s.run = .running ∧ s.pc.toNat < 32768 ∧ readCell s.mem s.pc.toNat = 20#16 ∧ s.cfg.hasIn = false) :=
  ⟨by decide, { cells [20, 32768] with cfg := { stackDepth := none, hasIn := false } }, by decide⟩

/-- `pc` = 32768; and SET with one operand word left, ADD with none. -/
theorem witness_FetchOutsideMemoryFaults :
    (∃ s : State, s.run = .running ∧ 32768 ≤ s.pc.toNat) ∧
    (at_ 32766 [1, 5]).run = .running ∧ (at_ 32766 [1, 5]).pc.toNat < 32768 ∧
    decode true (cellsAtPc (at_ 32766 [1, 5])) = .error (.missingOperand 1) ∧
    decode true (cellsAtPc (at_ 32767 [9])) = .error (.missingOperand 0) :=
  ⟨⟨{ State.reset with pc := 32768 }, by decide⟩, rfl, by decide, by rfl, by rfl⟩

theorem witness_PlacedWordRuns :
    State.reset.mem.wf = true ∧ State.reset.cfg.hasIn = true ∧
    decodeTableWord 64 0x8002800180000009 = some (.add (.reg 0) (.reg 1) (.reg 2)) := by
  decide

/-- The state of the witnesses below: `r0` = 7, `r1` = 32768, `r2` = 0, and `RMEM r0 r1` at 0. -/
def sample : State := regs3 7 32768 0 (cells [15, 32768, 32769])

/-- Operands resolve: a literal at each end of its range, and registers with small and large words. -/
theorem witness_operands :
    sample.val (.lit 0) = .ok 0#16 ∧ sample.val (.lit 32767) = .ok 32767#16 ∧ sample.val (.reg 0) = .ok 7#16 ∧
    sample.val (.reg 1) = .ok 32768#16 ∧ (Src.lit 0).legal = true :=
  ⟨rfl, rfl, rfl, rfl, rfl⟩

theorem witness_SetRule : sample.val (.reg 1) = .ok 32768#16 := rfl

theorem witness_NotRule : sample.val (.reg 1) = .ok 32768#16 := rfl

theorem witness_EqRule :
    sample.val (.reg 0) = .ok 7#16 ∧ sample.val (.lit 7) = .ok 7#16 ∧ (Src.reg 0).legal = true := ⟨rfl, rfl, rfl⟩

theorem witness_GtRule :
    sample.val (.reg 1) = .ok 32768#16 ∧ sample.val (.lit 32767) = .ok 32767#16 ∧ (Src.reg 1).legal = true :=
  ⟨rfl, rfl, rfl⟩

theorem witness_AddRule :
    sample.val (.lit 32767) = .ok 32767#16 ∧ sample.val (.reg 1) = .ok 32768#16 ∧ (Src.lit 32767).legal = true :=
  ⟨rfl, rfl, rfl⟩

theorem witness_MultRule :
    sample.val (.reg 1) = .ok 32768#16 ∧ sample.val (.reg 0) = .ok 7#16 ∧ (Src.reg 1).legal = true := ⟨rfl, rfl, rfl⟩

theorem witness_AndRule :
    sample.val (.reg 1) = .ok 32768#16 ∧ sample.val (.lit 32767) = .ok 32767#16 ∧ (Src.reg 1).legal = true :=
  ⟨rfl, rfl, rfl⟩

theorem witness_OrRule :
    sample.val (.reg 1) = .ok 32768#16 ∧ sample.val (.lit 1) = .ok 1#16 ∧ (Src.reg 1).legal = true := ⟨rfl, rfl, rfl⟩

/-- A divisor of 1, and the divisor 0. -/
theorem witness_ModRule :
    sample.val (.reg 0) = .ok 7#16 ∧ (sample.val (.lit 1) = .ok 1#16 ∧ 1#16 ≠ 0#16) ∧ sample.val (.reg 2) = .ok 0#16 ∧
    (Src.reg 0).legal = true :=
  ⟨rfl, ⟨rfl, by decide⟩, rfl, rfl⟩

/-- One place left below a depth of 3, and a full stack; PUSH and CALL. -/
theorem witness_PushRule :
    (∃ s : State, s.val (.lit 5) = .ok 5#16 ∧ s.cfg.stackDepth = some 3 ∧
      ∀ n, s.cfg.stackDepth = some n → s.stack.length < n) ∧
    fullStack.val (.lit 5) = .ok 5#16 ∧ fullStack.cfg.stackDepth = some fullStack.stack.length :=
  ⟨⟨{ fullStack with cfg := { stackDepth := some 3, hasIn := true } }, rfl, rfl, by intro n h; cases h; decide⟩,
    rfl, rfl⟩

/-- As for PUSH; and CALL in the last two cells, where the return address is 32768. -/
theorem witness_CallRule :
    ((at_ 32766 [17, 5]).val (.lit 5) = .ok 5#16 ∧ (at_ 32766 [17, 5]).pc.toNat < 32768 ∧
      ∀ n, (at_ 32766 [17, 5]).cfg.stackDepth = some n → (at_ 32766 [17, 5]).stack.length < n) ∧
    fullStack.cfg.stackDepth = some fullStack.stack.length :=
  ⟨⟨rfl, by decide, nofun⟩, rfl⟩

theorem witness_PopRule : fullStack.stack = [1#16] ++ [2#16] ∧ State.reset.stack = [] := ⟨rfl, rfl⟩

theorem witness_RetRule : ({ sample with stack := [12] } : State).stack = [] ++ [12#16] ∧ sample.stack = [] :=
  ⟨rfl, rfl⟩

theorem witness_JmpRule : sample.val (.reg 1) = .ok 32768#16 := rfl

/-- A condition of 0, one of 1 and one of 32768. -/
theorem witness_ConditionalJumpRule :
    sample.val (.reg 2) = .ok 0#16 ∧ (sample.val (.lit 1) = .ok 1#16 ∧ 1#16 ≠ 0#16) ∧
    (sample.val (.reg 1) = .ok 32768#16 ∧ 32768#16 ≠ 0#16) ∧ sample.val (.lit 100) = .ok 100#16 ∧
    (Src.reg 2).legal = true :=
  ⟨rfl, ⟨rfl, by decide⟩, ⟨rfl, by decide⟩, rfl, rfl⟩

theorem witness_CallAndReturnRoundTrip :
    sample.val (.lit 50) = .ok 50#16 ∧ sample.stackFull = false ∧
    (∃ t, exec (.call (.lit 50)) sample = .next t ∧ ({ sample with stack := [2] } : State).stack = t.stack) ∧
    ∃ t, exec (.push (.lit 50)) sample = .next t :=
  ⟨rfl, by decide, ⟨_, rfl, rfl⟩, ⟨_, rfl⟩⟩

/-- The ends of the range, and the divisor 1; a zero operand for the second clause. -/
theorem witness_InRangeValuesGiveInRangeResults :
    sample.val (.lit 32767) = .ok 32767#16 ∧ sample.val (.lit 1) = .ok 1#16 ∧ (32767#16).toNat < 32768 ∧
    (1#16).toNat < 32768 ∧ 1#16 ≠ 0#16 ∧ sample.val (.reg 2) = .ok 0#16 :=
  ⟨rfl, rfl, by decide, by decide, by decide, rfl⟩

theorem witness_ArithmeticLaws :
    (Src.lit 32767).legal = true ∧ (Src.reg 7).legal = true ∧ (32767#16).toNat < 32768 ∧ (0#16).toNat < 32768 ∧
    0 < (1#16).toNat := by
  decide

theorem witness_NotTwiceIsIdentity : (sample.reg 0).toNat < 32768 ∧ (sample.reg 2).toNat < 32768 := by decide

/-- The addresses 32767 and 32768. -/
theorem witness_RmemRule :
    (sample.val (.lit 32767) = .ok 32767#16 ∧ (32767#16).toNat < 32768) ∧
    (sample.val (.reg 1) = .ok 32768#16 ∧ 32768 ≤ (32768#16).toNat) :=
  ⟨⟨rfl, by decide⟩, rfl, by decide⟩

/-- The addresses 32767 and 32768. -/
theorem witness_WmemRule :
    sample.mem.wf = true ∧ sample.val (.reg 0) = .ok 7#16 ∧ (Src.reg 0).legal = true ∧
    (sample.val (.lit 32767) = .ok 32767#16 ∧ (32767#16).toNat < 32768) ∧
    (sample.val (.reg 1) = .ok 32768#16 ∧ 32768 ≤ (32768#16).toNat) :=
  ⟨by decide, rfl, rfl, ⟨rfl, by decide⟩, rfl, by decide⟩

/-- S8: `WMEM 3 21` at 0, `WMEM 3 0`, and a store to the first operand of the next instruction. -/
theorem witness_StoreIsSeenByTheNextFetch :
    (cells [16, 3, 21, 0]).mem.wf = true ∧ (cells [16, 3, 21, 0]).run = .running ∧
    (cells [16, 3, 21, 0]).fetchInstr = .ok (.wmem (.lit 3) (.lit 21)) ∧
    (cells [16, 3, 21, 0]).val (.lit 3) = .ok 3#16 ∧ (cells [16, 3, 21, 0]).val (.lit 21) = .ok 21#16 ∧
    (3#16).toNat < 32768 ∧
    (∃ t, step (cells [16, 3, 21, 0]) = .next t ∧ (3#16).toNat = t.pc.toNat) ∧
    (∃ t, step (cells [16, 3, 0, 21]) = .next t ∧ (3#16).toNat = t.pc.toNat) ∧
    (∃ t, step (cells [16, 4, 7, 2]) = .next t ∧ (4#16).toNat = t.pc.toNat + 1) :=
  ⟨by decide, rfl, by rfl, rfl, rfl, by decide, ⟨_, rfl, by decide⟩, ⟨_, rfl, by decide⟩, ⟨_, rfl, by decide⟩⟩

/-- A sink that is ready, and one that is not. -/
theorem witness_OutRule :
    sample.val (.reg 1) = .ok 32768#16 ∧ sample.sinkReady = true ∧
    ({ sample with sinkReady := false } : State).val (.reg 1) = .ok 32768#16 :=
  ⟨rfl, rfl, rfl⟩

/-- A character, none yet, and the end of the stream. -/
theorem witness_InRule :
    ({ sample with inp := [255, 65] } : State).inp = 255#8 :: [65#8] ∧ (sample.inp = [] ∧ sample.inpEnded = false) ∧
    (({ sample with inpEnded := true } : State).inp = [] ∧ ({ sample with inpEnded := true } : State).inpEnded = true) :=
  ⟨rfl, ⟨rfl, rfl⟩, rfl, rfl⟩

/-- A Fault of the fetch and one of the instruction. -/
theorem witness_FaultsArePrecise :
    (sample.run = .running ∧ ∃ t, step sample = .next t ∧ t.run = .faulted) ∧
    ((cells [22]).run = .running ∧ ∃ t, step (cells [22]) = .next t ∧ t.run = .faulted) :=
  ⟨⟨rfl, _, rfl, rfl⟩, rfl, _, rfl, rfl⟩

/-- A Fault of the instruction's own, and a bad operand that outranks a divisor of 0 (V-ALU.34). -/
theorem witness_FaultsOfEachInstruction :
    (sample.run = .running ∧ ∃ t, exec (.rmem (.reg 0) (.reg 1)) sample = .next t ∧ t.run = .faulted) ∧
    (∃ t, exec (.mod (.bad 5) (.lit 17) (.lit 0)) sample = .next t) ∧
    (Instr.mod (.bad 5) (.lit 17) (.lit 0)).legal = false :=
  ⟨⟨rfl, _, rfl, rfl⟩, ⟨_, rfl⟩, rfl⟩

theorem witness_OnlyResetLeavesAFinalState :
    State.reset.halt.run ≠ .running ∧ fullStack.run = .running ∧
    ∃ t, envStep (.reset []) State.reset.halt = some t ∧ t.run ≠ State.reset.halt.run :=
  ⟨by decide, rfl, _, rfl, by decide⟩

theorem witness_HaltedExactlyByHalt :
    (cells [0]).run = .running ∧ (cells [0]).fetchInstr = .ok .halt ∧
    ∃ t, step (cells [0]) = .next t ∧ t.run = .halted :=
  ⟨rfl, rfl, _, rfl, rfl⟩

/-- A Fault, a HALT, a wait, and NOOP in the last cell. -/
theorem witness_DefaultAdvance :
    (sample.run = .running ∧ sample.fetchInstr = .ok (.rmem (.reg 0) (.reg 1)) ∧
      ∃ t, step sample = .next t ∧ t.run = .faulted) ∧
    (cells [0]).fetchInstr = .ok .halt ∧
    (waiting (cells [20, 32768]) ∧ ∃ t, step (cells [20, 32768]) = .next t) ∧
    ((at_ 32767 [21]).fetchInstr = .ok .noop ∧ assignsPc .noop = false ∧
      ∃ t, step (at_ 32767 [21]) = .next t ∧ t.run ≠ .faulted) :=
  ⟨⟨rfl, by rfl, _, rfl, rfl⟩, rfl, ⟨⟨rfl, .inl ⟨0, by rfl, rfl, rfl⟩⟩, _, rfl⟩, by rfl, rfl, _, rfl, by decide⟩

/-- NOOP in the last cell does not wait. -/
theorem witness_DefaultAdvance_not_waiting : ¬ waiting (at_ 32767 [21]) := by
  have h : (at_ 32767 [21]).fetchInstr = .ok .noop := by rfl
  rintro ⟨-, ⟨d, hd, -⟩ | ⟨a, ha, -⟩⟩
  · exact nomatch h.symm.trans hd
  · exact nomatch h.symm.trans ha

theorem witness_OnlyTheDestinationIsWritten :
    ∃ t, step (cells [1, 32775, 5]) = .next t ∧ t.reg 7 ≠ (cells [1, 32775, 5]).reg 7 :=
  ⟨_, rfl, by decide⟩

theorem witness_StackMovesOnlyAtItsTop :
    (∃ t, step (cells [17, 50]) = .next t ∧ t.stack ≠ (cells [17, 50]).stack) ∧
    ∃ t, step { cells [18] with stack := [1, 2] } = .next t ∧ t.stack = [1#16] :=
  ⟨⟨_, rfl, by decide⟩, _, rfl, by decide⟩

/-- Both bytes of a cell change. -/
theorem witness_MemoryChangesOnlyByWmem :
    ∃ t, step (cells [16, 100, 32767]) = .next t ∧
      readByte t.mem 200 ≠ readByte (cells [16, 100, 32767]).mem 200 ∧
      readByte t.mem 201 ≠ readByte (cells [16, 100, 32767]).mem 201 :=
  ⟨_, rfl, by decide, by decide⟩

theorem witness_StreamsMoveByOneCharacter :
    (∃ t, step (cells [19, 72]) = .next t ∧ t.out ≠ (cells [19, 72]).out) ∧
    ∃ t, step { cells [20, 32768] with inp := [255, 65] } = .next t ∧ t.inp = [65#8] :=
  ⟨⟨_, rfl, by decide⟩, _, rfl, rfl⟩

/-- An IN that reads the character already there, while another arrives. -/
theorem witness_EarlyInputChangesNoResult :
    ({ cells [20, 32768] with inp := [65] } : State).inpEnded = false ∧
    ¬ waiting { cells [20, 32768] with inp := [65] } ∧
    ∃ t, step { cells [20, 32768] with inp := [65] } = .next t := by
  refine ⟨rfl, ?_, _, rfl⟩
  have h : ({ cells [20, 32768] with inp := [65] } : State).fetchInstr = .ok (.in_ (.reg 0)) := by rfl
  rintro ⟨-, ⟨d, -, hi, -⟩ | ⟨a, ha, -⟩⟩
  · exact nomatch hi
  · exact nomatch h.symm.trans ha

/-- A waiting IN with its two ends, and a waiting OUT. -/
theorem witness_WaitsEndByTheNamedEvent :
    (waiting (cells [20, 32768]) ∧ (cells [20, 32768]).fetchInstr = .ok (.in_ (.reg 0)) ∧
      (envStep (.supply 65) (cells [20, 32768])).isSome = true ∧
      (envStep .endInput (cells [20, 32768])).isSome = true) ∧
    ∃ s : State, waiting s ∧ s.fetchInstr = .ok (.out (.lit 328)) ∧ s.val (.lit 328) = .ok 328#16 ∧
      (envStep (.sink true) s).isSome = true :=
  ⟨⟨⟨rfl, .inl ⟨0, by rfl, rfl, rfl⟩⟩, by rfl, by decide, by decide⟩,
    { cells [19, 328] with sinkReady := false },
    ⟨rfl, .inr ⟨.lit 328, by rfl, rfl, rfl⟩⟩, by rfl, rfl, by decide⟩

end Sys2Proof.Tests
end

section
/-! The state family (`10_state.md`): what a step and an event of the environment can change, and the invariant. -/

namespace Sys2Proof

/-! ## The operands of an instruction and the words they stand in -/

/-- The encoding is the opcode word, then the destination word, if there is one, then the value words (R46, R48). -/
theorem encode_eq_opcode_cons_operands (i : Instr) :
    ∃ op, encode i =
      op :: ((Machine.dstOperand i).toList.map encodeDst ++ (Machine.srcOperands i).map encodeSrc) := by
  cases i <;> exact ⟨_, rfl⟩

/-- The destination word is the first operand word (R48). -/
theorem encode_getElem?_one_of_dstOperand {i : Instr} {a : Dst} (h : Machine.dstOperand i = some a) :
    (encode i)[1]? = some (encodeDst a) := by
  obtain ⟨op, he⟩ := encode_eq_opcode_cons_operands i
  simp [he, h]

/-- Every value word is an operand word (R48). -/
theorem exists_encode_getElem?_of_mem_srcOperands {i : Instr} {a : Src} (h : a ∈ Machine.srcOperands i) :
    ∃ k, 1 ≤ k ∧ (encode i)[k]? = some (encodeSrc a) := by
  obtain ⟨op, he⟩ := encode_eq_opcode_cons_operands i
  have hmem : encodeSrc a ∈ (Machine.dstOperand i).toList.map encodeDst ++ (Machine.srcOperands i).map encodeSrc :=
    List.mem_append_right _ (List.mem_map_of_mem h)
  obtain ⟨k, hk⟩ := List.mem_iff_getElem?.mp hmem
  exact ⟨k + 1, by omega, by simpa [he] using hk⟩

/-- An instruction is well formed when its operands are. -/
theorem Instr.wf_iff (i : Instr) :
    i.wf = true ↔ (∀ a, Machine.dstOperand i = some a → a.wf = true) ∧ ∀ a ∈ Machine.srcOperands i, a.wf = true := by
  cases i <;> simp [Instr.wf, Machine.dstOperand, Machine.srcOperands, and_assoc]

/-- A well-formed `bad` destination is a word that R50 calls invalid. -/
theorem Dst.wf_bad_iff {w : Word} : (Dst.bad w).wf = true ↔ w.toNat < 32768 ∨ 32775 < w.toNat := by
  rw [Dst.wf, Bool.not_eq_true', ← Bool.not_eq_true, isRegisterWord_iff]
  omega

/-- A well-formed `bad` value operand is a word that R49 calls invalid. -/
theorem Src.wf_bad_iff {w : Word} : (Src.bad w).wf = true ↔ 32775 < w.toNat := by
  simp [Src.wf]

/-- A legal destination operand is a register. -/
theorem Dst.legal_iff {a : Dst} : a.legal = true ↔ ∃ d, a = .reg d := by
  cases a <;> simp [Dst.legal]

end Sys2Proof

namespace Sys2Proof.Machine

/-- Word `k` of the instruction fetched stands in the cell `pc + k`. -/
theorem readCell_of_encode_getElem? {s : State} {i : Instr} {k : Nat} {w : Word} (hf : s.fetchInstr = .ok i)
    (hk : (encode i)[k]? = some w) : k < i.words ∧ readCell s.mem (s.pc.toNat + k) = w := by
  rw [(encode_of_fetchInstr hf).1] at hk
  obtain ⟨hlt, hw⟩ := List.getElem?_eq_some_iff.mp hk
  exact ⟨by simpa using hlt, by simpa [cellsFrom] using hw⟩

/-- A bad destination of the instruction fetched is an invalid word, and it stands in the cell after the opcode. -/
theorem badDestination_cell {s : State} {i : Instr} {w : Word} (hf : s.fetchInstr = .ok i)
    (h : dstOperand i = some (.bad w)) :
    (w.toNat < 32768 ∨ 32775 < w.toNat) ∧ readCell s.mem (s.pc.toNat + 1) = w := by
  obtain ⟨-, hwf, -, -⟩ := encode_of_fetchInstr hf
  exact ⟨Dst.wf_bad_iff.mp ((Instr.wf_iff i).mp hwf |>.1 _ h),
    (readCell_of_encode_getElem? hf (encode_getElem?_one_of_dstOperand h)).2⟩

/-- A bad value operand of the instruction fetched is an invalid word, and it stands in one of its operand cells. -/
theorem badValueOperand_cell {s : State} {i : Instr} {w : Word} (hf : s.fetchInstr = .ok i)
    (h : Src.bad w ∈ srcOperands i) :
    32775 < w.toNat ∧ ∃ k, 1 ≤ k ∧ k < i.words ∧ readCell s.mem (s.pc.toNat + k) = w := by
  obtain ⟨-, hwf, -, -⟩ := encode_of_fetchInstr hf
  obtain ⟨k, hk, hw⟩ := exists_encode_getElem?_of_mem_srcOperands h
  obtain ⟨hlt, hcell⟩ := readCell_of_encode_getElem? hf hw
  exact ⟨Src.wf_bad_iff.mp ((Instr.wf_iff i).mp hwf |>.2 _ h), k, hk, hlt, hcell⟩

/-! ## What a step can do -/

/-- The Fault that the step of a running `s` takes: that of the fetch, or that of the instruction fetched. -/
def StepRaises (s : State) (r : Raise) : Prop :=
  s.fetchInstr = .error r ∨ ∃ i, s.fetchInstr = .ok i ∧ Raised s i r

/-- A step does nothing in a final state; in a running one it takes a Fault or completes the instruction fetched. -/
theorem step_outcome {s t : State} (h : step s = .next t) :
    (s.run ≠ .running ∧ t = s) ∨
    (s.run = .running ∧ ∃ r, StepRaises s r ∧ t = s.takeFault r) ∨
    (s.run = .running ∧ ∃ i, s.fetchInstr = .ok i ∧ Completed s i t) := by
  rcases step_cases h with hstop | ⟨hr, r, hf, ht⟩ | ⟨hr, i, hf, he⟩
  · exact .inl hstop
  · exact .inr (.inl ⟨hr, r, .inl hf, ht⟩)
  · rcases exec_cases he with hc | ⟨r, hraise, ht⟩
    · exact .inr (.inr ⟨hr, i, hf, hc⟩)
    · exact .inr (.inl ⟨hr, r, .inr ⟨i, hf, hraise⟩, ht⟩)

/-! ## The fault record -/

@[simp] theorem State.takeFault_fetchInstr (s : State) (r : Raise) : (s.takeFault r).fetchInstr = s.fetchInstr :=
  State.fetchInstr_congr rfl rfl rfl

@[simp] theorem State.takeFault_val (s : State) (r : Raise) (a : Src) : (s.takeFault r).val a = s.val a :=
  State.val_congr rfl a

/-- The record of a Fault of the fetch is true of the state it leaves (R95, R98). -/
theorem faultInfoOk_of_fetch_fault {s : State} {r : Raise} (h : s.fetchInstr = .error r) :
    faultInfoOk (s.takeFault r) := by
  rcases State.fetchInstr_eq_error.mp h with ⟨hpc, rfl⟩ | ⟨hpc, hop, rfl⟩ | ⟨f, hpc, hop, hlen, rfl⟩
  · exact .inl ⟨hpc, rfl⟩
  · refine ⟨hpc, rfl, (opcodeForm_eq_none.mp hop).imp id fun ⟨h20, hin⟩ => ⟨?_, hin⟩⟩
    exact BitVec.eq_of_toNat_eq h20
  · exact .inr ⟨hpc, rfl, f, hop, by simp only [State.takeFault_pc]; omega⟩

/-- A full stack that fits is exactly as deep as the finite `STACK_DEPTH`. -/
theorem State.stackDepth_of_stackFull {s : State} (hfit : ∀ n, s.cfg.stackDepth = some n → s.stack.length ≤ n)
    (h : s.stackFull = true) : s.cfg.stackDepth = some s.stack.length := by
  obtain ⟨n, hn, hle⟩ := State.stackFull_eq_true.mp h
  rw [hn, Nat.le_antisymm hle (hfit n hn)]

/-- The record of a Fault of the instruction fetched is true of the state it leaves (R95, R98, R99). -/
theorem faultInfoOk_of_raised {s : State} {i : Instr} {r : Raise}
    (hfit : ∀ n, s.cfg.stackDepth = some n → s.stack.length ≤ n) (hf : s.fetchInstr = .ok i) (h : Raised s i r) :
    faultInfoOk (s.takeFault r) := by
  have hf' : (s.takeFault r).fetchInstr = .ok i := by rw [State.takeFault_fetchInstr, hf]
  cases h with
  | badDestination w h =>
    obtain ⟨hw, hcell⟩ := badDestination_cell hf h
    exact ⟨hw, hcell.symm, i, hf', h⟩
  | badValueOperand w h =>
    obtain ⟨hw, k, hk, hlt, hcell⟩ := badValueOperand_cell hf (firstBadValue_mem h)
    exact ⟨hw, i, k, hf', h, hk, hlt, hcell.symm⟩
  | stackUnderflow hl hs hi =>
    refine ⟨rfl, hs, ?_⟩
    rcases hi with ⟨a, rfl⟩ | rfl
    · obtain ⟨d, rfl⟩ := Dst.legal_iff.mp hl
      exact .inl ⟨d, hf'⟩
    · exact .inr hf'
  | stackOverflow hl hs hi =>
    refine ⟨rfl, State.stackDepth_of_stackFull hfit hs, ?_⟩
    obtain ⟨a, rfl | rfl⟩ := hi
    · exact ⟨a, hl, .inl hf'⟩
    · exact ⟨a, hl, .inr hf'⟩
  | divideByZero hl hi =>
    obtain ⟨a, b, c, rfl, hc⟩ := hi
    simp only [Instr.legal, Bool.and_eq_true] at hl
    obtain ⟨⟨ha, hb⟩, -⟩ := hl
    obtain ⟨d, rfl⟩ := Dst.legal_iff.mp ha
    exact ⟨rfl, d, b, c, hf', hb, (s.takeFault_val _ c).trans hc⟩
  | memAddressOutOfRange w hl hw hi =>
    refine ⟨hw, ?_⟩
    obtain ⟨a, ha, hi⟩ := hi
    have hval := (s.takeFault_val { cause := .memAddressOutOfRange, info := w } a).trans ha
    rcases hi with ⟨d, rfl⟩ | ⟨b, rfl⟩
    · obtain ⟨d, rfl⟩ := Dst.legal_iff.mp (Bool.and_eq_true_iff.mp hl).1
      exact .inl ⟨d, a, hf', hval⟩
    · exact .inr ⟨a, b, hf', hval, (Bool.and_eq_true_iff.mp hl).2⟩
  | inputEnd hl hs he hi =>
    obtain ⟨a, rfl⟩ := hi
    obtain ⟨d, rfl⟩ := Dst.legal_iff.mp hl
    exact ⟨rfl, hs, he, d, hf'⟩

/-! ## The invariant over a step -/

/-- Taking a Fault with a true record keeps the invariant. -/
theorem inv_takeFault {s : State} {r : Raise} (hI : Inv s) (h : faultInfoOk (s.takeFault r)) :
    Inv (s.takeFault r) where
  memory := hI.memory
  stackFits := hI.stackFits
  recordClear hr := absurd rfl hr
  recordOfFault _ := ⟨rfl, h⟩
  haltedAtHalt hr := nomatch hr

/-- The Fault of a step keeps the invariant. -/
theorem inv_of_stepRaises {s : State} {r : Raise} (hI : Inv s) (h : StepRaises s r) : Inv (s.takeFault r) := by
  rcases h with hf | ⟨i, hf, hraise⟩
  · exact inv_takeFault hI (faultInfoOk_of_fetch_fault hf)
  · exact inv_takeFault hI (faultInfoOk_of_raised hI.stackFits hf hraise)

/-- A completed instruction leaves memory in canonical form (R30). -/
theorem Completed.mem_wf {s t : State} {i : Instr} (h : Completed s i t) (hm : s.mem.wf = true) : t.mem.wf = true := by
  rcases h.mem with he | ⟨a, b, va, vb, -, -, -, hlt, he⟩
  · rw [he, hm]
  · rw [he]
    exact writeCell_wf s.mem va.toNat vb hm hlt

/-- A completed instruction leaves the stack within a finite depth (R17). -/
theorem Completed.stack_fits {s t : State} {i : Instr} (h : Completed s i t)
    (hfit : ∀ n, s.cfg.stackDepth = some n → s.stack.length ≤ n) :
    ∀ n, t.cfg.stackDepth = some n → t.stack.length ≤ n := by
  intro n hn
  rw [h.cfg] at hn
  have hs := hfit n hn
  rcases h.stack with he | ⟨hfull, v, he, -⟩ | ⟨v, he, -⟩
  · rw [he]
    exact hs
  · have := State.stackFull_eq_false.mp hfull n hn
    rw [he, List.length_append, List.length_singleton]
    omega
  · rw [he, List.length_append] at hs
    omega

/-- A completed instruction of a running engine never ends in `Faulted`. -/
theorem Completed.run_ne_faulted {s t : State} {i : Instr} (h : Completed s i t) (hr : s.run = .running) :
    t.run ≠ .faulted := by
  rcases h.run with ⟨-, rfl⟩ | ⟨-, he⟩
  · simp
  · simp [he, hr]

/-- A completed instruction of a running engine ends in `Halted` only by HALT, which changes `run` only (R73). -/
theorem Completed.halted_iff {s t : State} {i : Instr} (h : Completed s i t) (hr : s.run = .running) :
    t.run = .halted ↔ i = .halt ∧ t = s.halt := by
  rcases h.run with hh | ⟨hne, he⟩
  · simp [hh]
  · simp [he, hr, hne]

/-- A HALT that is fetched is the word 0 at `pc`. -/
theorem readCell_pc_of_fetch_halt {s : State} (hf : s.fetchInstr = .ok .halt) : readCell s.mem s.pc.toNat = 0#16 :=
  (readCell_of_encode_getElem? (k := 0) hf rfl).2

/-- Completing the instruction fetched keeps the invariant. -/
theorem inv_of_completed {s t : State} {i : Instr} (hI : Inv s) (hr : s.run = .running) (hf : s.fetchInstr = .ok i)
    (h : Completed s i t) : Inv t where
  memory := h.mem_wf hI.memory
  stackFits := h.stack_fits hI.stackFits
  recordClear _ := by rw [h.fault, hI.recordClear (by simp [hr])]
  recordOfFault hrun := absurd hrun (h.run_ne_faulted hr)
  haltedAtHalt hrun := by
    obtain ⟨rfl, rfl⟩ := (h.halted_iff hr).mp hrun
    have hpc : s.pc.toNat < 32768 := State.pc_lt_of_fetchInstr hf
    exact ⟨hpc, readCell_pc_of_fetch_halt (s := s) hf⟩

/-- Settles O13: a final state is unchanged, a Fault leaves a true record, and a completed instruction keeps each part. -/
theorem stepKeepsInvariant : Obligations.StepKeepsInvariant := by
  intro s t hI h
  rcases step_outcome h with ⟨-, rfl⟩ | ⟨-, r, hraise, rfl⟩ | ⟨hr, i, hf, hc⟩
  · exact hI
  · exact inv_of_stepRaises hI hraise
  · exact inv_of_completed hI hr hf hc

/-! ## What a step leaves unchanged -/

/-- Settles O50: no Fault ends in `Halted`, and of the completed instructions only HALT does. -/
theorem haltedExactlyByHalt : Obligations.HaltedExactlyByHalt := by
  intro s t hr h
  have hhalt : t.run = .halted → s.fetchInstr = .ok .halt ∧ t = s.halt := by
    intro hrun
    rcases step_outcome h with ⟨hne, -⟩ | ⟨-, r, -, rfl⟩ | ⟨-, i, hf, hc⟩
    · exact absurd hr hne
    · simp at hrun
    · obtain ⟨rfl, ht⟩ := (hc.halted_iff hr).mp hrun
      exact ⟨hf, ht⟩
  refine ⟨⟨fun hrun => (hhalt hrun).1, fun hf => ?_⟩, fun hrun => (hhalt hrun).2⟩
  have hexec : exec .halt s = .next t := step_of_fetch hr hf ▸ h
  cases hexec
  rfl

/-- Settles O52: a final state and a Fault write no register, and a completed instruction only its destination. -/
theorem onlyTheDestinationIsWritten : Obligations.OnlyTheDestinationIsWritten := by
  intro s t r h hne
  rcases step_outcome h with ⟨-, rfl⟩ | ⟨-, r', -, rfl⟩ | ⟨hr, i, hf, hc⟩
  · exact absurd rfl hne
  · simp at hne
  · exact ⟨hr, i, hf, hc.reg r hne⟩

/-- Settles O53: a final state and a Fault keep the stack, and a completed instruction moves it at its top. -/
theorem stackMovesOnlyAtItsTop : Obligations.StackMovesOnlyAtItsTop := by
  intro s t h
  rcases step_outcome h with ⟨-, rfl⟩ | ⟨-, r, -, rfl⟩ | ⟨-, i, hf, hc⟩
  · exact .inl rfl
  · exact .inl rfl
  · simp only [hf, Except.ok.injEq]
    exact hc.stack.imp_right (Or.imp_left And.right)

/-- Settles O55: a final state and a Fault keep the streams, and a completed instruction moves them by one character. -/
theorem streamsMoveByOneCharacter : Obligations.StreamsMoveByOneCharacter := by
  intro s t h
  rcases step_outcome h with ⟨-, rfl⟩ | ⟨-, r, -, rfl⟩ | ⟨-, i, hf, hc⟩
  · exact ⟨.inl rfl, .inl rfl, rfl, rfl, rfl⟩
  · exact ⟨.inl rfl, .inl rfl, rfl, rfl, rfl⟩
  · simp only [hf, Except.ok.injEq]
    exact ⟨hc.out, hc.inp, hc.inpEnded, hc.sinkReady, hc.cfg⟩

/-! ## Reset -/

theorem State.reset_reg (r : Reg) : State.reset.reg r = 0#16 := by
  simp [State.reg, State.reset]

theorem State.afterReset_reg (s : State) (mem : Memory) (r : Reg) : (s.afterReset mem).reg r = 0#16 :=
  State.reset_reg r

/-- An image of at most 32768 cells loads (R33). -/
theorem exists_loadImage_of_le {image : List Byte} (h : image.length / 2 ≤ 32768) : ∃ mem, loadImage image = some mem :=
  ⟨_, if_pos h⟩

/-- A longer image is a Load error (R105). -/
theorem loadImage_of_gt {image : List Byte} (h : 32768 < image.length / 2) : loadImage image = none :=
  if_neg (Nat.not_le.mpr h)

/-- A reset completes with what its image loads as, and with no image that is a Load error (R111). -/
theorem envStep_reset (image : List Byte) (s : State) : envStep (.reset image) s = (loadImage image).map s.afterReset := by
  rw [envStep]
  cases loadImage image <;> rfl

/-- Settles O7: the fields of the reset state. -/
theorem resetValues : Obligations.ResetValues :=
  ⟨readCell_nil, State.reset_reg, rfl, rfl, rfl, rfl, rfl, rfl⟩

/-- Settles O9: the reset goes the way of the loading of its image. -/
theorem resetFromAnyState : Obligations.ResetFromAnyState := by
  intro s image
  rw [envStep_reset]
  constructor
  · intro hle
    obtain ⟨mem, hmem⟩ := exists_loadImage_of_le hle
    exact ⟨s.afterReset mem, by rw [hmem]; rfl, hmem, s.afterReset_reg mem, rfl, rfl, rfl, rfl, rfl, rfl, rfl, rfl, rfl⟩
  · intro hgt
    rw [loadImage_of_gt hgt]
    rfl

/-- A reset gives a state that meets the invariant, whatever the state before it (R24, R29). -/
theorem inv_afterReset (s : State) {mem : Memory} (hm : mem.wf = true) : Inv (s.afterReset mem) where
  memory := hm
  stackFits n _ := Nat.zero_le n
  recordClear _ := rfl
  recordOfFault hrun := nomatch hrun
  haltedAtHalt hrun := nomatch hrun

/-- Settles O12: the reset state is that of a reset with empty memory. -/
theorem resetMeetsInvariant : Obligations.ResetMeetsInvariant :=
  inv_afterReset State.reset reset_mem_wf

/-! ## The other events of the environment -/

/-- An event of the environment other than reset changes at most the input, its end and the sink, and leaves an input
that is empty and ended as it is (log 6). -/
theorem envStep_input_only {e : EnvEvent} {s t : State} (he : ∀ image, e ≠ .reset image) (h : envStep e s = some t) :
    t = { s with inp := t.inp, inpEnded := t.inpEnded, sinkReady := t.sinkReady } ∧
      (s.inp = [] → s.inpEnded = true → t.inp = [] ∧ t.inpEnded = true) := by
  cases e with
  | reset image => exact absurd rfl (he image)
  | supply b =>
    cases h
    cases hend : s.inpEnded with
    | true => exact ⟨rfl, fun hinp _ => ⟨hinp, hend⟩⟩
    | false => exact ⟨rfl, fun _ hend' => nomatch hend'⟩
  | endInput =>
    cases h
    exact ⟨rfl, fun hinp _ => ⟨hinp, rfl⟩⟩
  | sink ready =>
    cases h
    exact ⟨rfl, fun hinp hend => ⟨hinp, hend⟩⟩

/-- Settles O10: the first half of what such an event can do. -/
theorem environmentLeavesTheEngineAlone : Obligations.EnvironmentLeavesTheEngineAlone :=
  fun _ _ _ he h => (envStep_input_only he h).1

/-- The fault record stays true when only the input and the sink change, and an empty, ended input does not. -/
theorem faultInfoOk_of_input_only {s t : State}
    (ht : t = { s with inp := t.inp, inpEnded := t.inpEnded, sinkReady := t.sinkReady })
    (hin : s.inp = [] → s.inpEnded = true → t.inp = [] ∧ t.inpEnded = true) (h : faultInfoOk s) : faultInfoOk t := by
  generalize t.inp = inp, t.inpEnded = ended, t.sinkReady = ready at ht hin
  subst ht
  have hfetch : State.fetchInstr { s with inp := inp, inpEnded := ended, sinkReady := ready } = s.fetchInstr :=
    State.fetchInstr_congr rfl rfl rfl
  have hval : ∀ a, State.val { s with inp := inp, inpEnded := ended, sinkReady := ready } a = s.val a :=
    State.val_congr rfl
  unfold faultInfoOk at h ⊢
  simp only [hfetch, hval]
  cases hc : s.fault.cause with
  | none => simp only [hc] at h
  | inputEnd =>
    simp only [hc] at h ⊢
    obtain ⟨hinfo, hinp, hend, hi⟩ := h
    obtain ⟨hinp', hend'⟩ := hin hinp hend
    exact ⟨hinfo, hinp', hend', hi⟩
  | _ => simpa only [hc] using h

/-- An event that changes only the input and the sink keeps the invariant. -/
theorem inv_of_input_only {s t : State} (hI : Inv s)
    (ht : t = { s with inp := t.inp, inpEnded := t.inpEnded, sinkReady := t.sinkReady })
    (hin : s.inp = [] → s.inpEnded = true → t.inp = [] ∧ t.inpEnded = true) : Inv t := by
  have hrecord : faultInfoOk s → faultInfoOk t := faultInfoOk_of_input_only ht hin
  rw [ht] at hrecord ⊢
  exact { memory := hI.memory, stackFits := hI.stackFits, recordClear := hI.recordClear,
          recordOfFault := fun hrun => (hI.recordOfFault hrun).imp_right hrecord, haltedAtHalt := hI.haltedAtHalt }

/-- Settles O14: a reset starts afresh with a canonical memory, and every other event moves only the input and the sink. -/
theorem environmentKeepsInvariant : Obligations.EnvironmentKeepsInvariant := by
  intro e s t hI h
  by_cases he : ∃ image, e = .reset image
  · obtain ⟨image, rfl⟩ := he
    rw [envStep_reset, Option.map_eq_some_iff] at h
    obtain ⟨mem, hmem, rfl⟩ := h
    exact inv_afterReset s (loadImage_wf image mem hmem)
  · obtain ⟨ht, hin⟩ := envStep_input_only (not_exists.mp he) h
    exact inv_of_input_only hI ht hin

/-! ## The status outputs -/

/-- Settles O11: each output is the code of its field, and the invariant clears the record until a Fault is taken. -/
theorem statusOutputsShowRunAndFault : Obligations.StatusOutputsShowRunAndFault := by
  intro s
  have hrun {r : RunState} (h : s.run = r) : s.status.run = runCode r := congrArg runCode h
  have hcause {c : FaultCause} (h : s.fault.cause = c) : s.status.cause = causeCode c := congrArg causeCode h
  exact ⟨hrun, hrun, hrun, hcause, hcause, hcause, hcause, hcause, hcause, hcause, hcause, hcause, hcause, rfl, rfl,
    fun hI hne => hcause (c := .none) (by rw [hI.recordClear hne])⟩

end Sys2Proof.Machine
end

section
/-! The memory family (`20_memory.md`): the loading of an image, fetches outside memory, and what a WMEM writes. -/

namespace Sys2Proof

/-- The decoder misses an operand word only after a known opcode with too few words behind it (R52, R55). -/
theorem exists_form_of_decode_missingOperand {hasIn : Bool} {cells : List Word} {k : Nat}
    (h : decode hasIn cells = .error (.missingOperand k)) :
    ∃ op ws f, cells = op :: ws ∧ opcodeForm hasIn op = some f ∧ ws.length < operandCount f := by
  cases cells with
  | nil => cases h
  | cons op ws =>
    cases hf : opcodeForm hasIn op with
    | none => simp [decode, hf] at h
    | some f =>
      by_cases hlen : ws.length < operandCount f
      · exact ⟨op, ws, f, rfl, hf, hlen⟩
      · simp [decode, hf, hlen] at h

end Sys2Proof

namespace Sys2Proof.Machine

/-! ## The loading of an image -/

/-- The cells of an image are its byte pairs, low byte first, a byte beyond its end counting as 0 (R33). -/
theorem readCell_imageBytes_toNat (bs : List Byte) (i : Nat) :
    (readCell (imageBytes 0 bs) i).toNat = (bs.getD (2 * i) 0#8).toNat + 256 * (bs.getD (2 * i + 1) 0#8).toNat := by
  have hbyte (j : Nat) : readByte (imageBytes 0 bs) j = bs.getD j 0#8 := by
    simpa using readByte_imageBytes bs 0 j
  rw [readCell, joinBytes_toNat, hbyte, hbyte]

/-- Settles O8: the cells below `N` hold the image's own bytes, and those from `N` on lie beyond its end. -/
theorem imageFillsMemory : Obligations.ImageFillsMemory := by
  intro image
  refine ⟨fun hle => ⟨_, if_pos hle, fun i hi => ?_, fun i hi => BitVec.eq_of_toNat_eq ?_⟩, loadImage_of_gt⟩
  · have hkept : ∀ j < 2 * (image.length / 2), (image.take (2 * (image.length / 2))).getD j 0#8 = image.getD j 0#8 :=
      fun j hj => by simp [List.getElem?_take_of_lt hj]
    rw [readCell_imageBytes_toNat, hkept _ (by omega), hkept _ (by omega)]
  · have hbeyond : ∀ j ≥ 2 * (image.length / 2), (image.take (2 * (image.length / 2))).getD j 0#8 = 0#8 :=
      fun j hj => List.getD_eq_default _ _ ((List.length_take_le ..).trans hj)
    rw [readCell_imageBytes_toNat, hbeyond _ (by omega), hbeyond _ (by omega)]
    rfl

/-! ## The cells at the program counter -/

theorem cellsAtPc_eq_cellsFrom (s : State) :
    cellsAtPc s = cellsFrom s.mem s.pc.toNat (min 4 (32768 - s.pc.toNat)) := rfl

/-- Inside memory, the opcode word is the first of the cells at `pc`. -/
theorem cellsAtPc_eq_cons {s : State} (hpc : s.pc.toNat < 32768) :
    cellsAtPc s = readCell s.mem s.pc.toNat :: cellsFrom s.mem (s.pc.toNat + 1) (min 3 (32767 - s.pc.toNat)) := by
  rw [cellsAtPc_eq_cellsFrom, ← cellsFrom_succ]
  congr 1
  omega

/-- Every cell inside memory among the four from `pc` on is one of the cells at `pc`. -/
theorem cellsAtPc_getElem? {s : State} {k : Nat} (hk : k < 4) (hmem : s.pc.toNat + k < 32768) :
    (cellsAtPc s)[k]? = some (readCell s.mem (s.pc.toNat + k)) := by
  have hlt : k < min 4 (32768 - s.pc.toNat) := by omega
  simp [cellsAtPc, List.getElem?_range hlt]

/-! ## Fetches outside memory -/

/-- Settles O19: the Fault of the opcode's fetch, and that of the first operand word beyond address 32767. -/
theorem fetchOutsideMemoryFaults : Obligations.FetchOutsideMemoryFaults := by
  intro s hr
  refine ⟨fun hpc => ?_, fun k hpc hdec => ?_⟩
  · exact step_of_fetch_fault hr (State.fetchInstr_eq_error.mpr (.inl ⟨hpc, rfl⟩))
  · obtain ⟨op, ws, f, hcells, hf, hlen⟩ := exists_form_of_decode_missingOperand hdec
    rw [cellsAtPc_eq_cons hpc] at hcells
    cases hcells
    have hcount := operandCount_le f
    rw [cellsFrom_length] at hlen
    exact step_of_fetch_fault hr (State.fetchInstr_eq_error.mpr (.inr (.inr ⟨f, hpc, hf, by omega, rfl⟩)))

/-! ## What a WMEM writes -/

/-- Settles O54: a final state and a Fault keep memory, and a completed instruction writes the one cell of a WMEM. -/
theorem memoryChangesOnlyByWmem : Obligations.MemoryChangesOnlyByWmem := by
  intro s t k h hne
  rcases step_outcome h with ⟨-, rfl⟩ | ⟨-, r, -, rfl⟩ | ⟨-, i, hf, hc⟩
  · exact absurd rfl hne
  · exact absurd rfl hne
  · rcases hc.mem with hmem | ⟨a, b, va, vb, rfl, ha, -, hlt, hmem⟩
    · exact absurd (by rw [hmem]) hne
    · refine ⟨a, b, va, hf, ha, hlt, ?_⟩
      by_contra hk
      rw [not_or] at hk
      exact hne (hmem ▸ readByte_writeCell_other s.mem va.toNat vb hk.1 hk.2)

/-- A WMEM with legal operands and an address inside memory completes with the word in its cell (R91). -/
theorem exec_wmem_of_lt {s : State} {a b : Src} {va vb : Word} (ha : s.val a = .ok va) (hb : s.val b = .ok vb)
    (hlt : va.toNat < 32768) :
    exec (.wmem a b) s = .next (State.advance { s with mem := writeCell s.mem va.toNat vb } 3) := by
  have hops : s.operandsVV a b = .ok (va, vb) := State.operandsVV_eq_ok.mpr ⟨ha, hb⟩
  have hwrite : s.memWrite va vb = .ok { s with mem := writeCell s.mem va.toNat vb } :=
    State.memWrite_eq_ok.mpr ⟨hlt, rfl⟩
  simp only [exec_eq_finish, effect, hops, bind_ok, hwrite, pure, Except.pure, finish_ok]

/-- An opcode without operand words that stands at `pc` is the instruction the step executes (R58). -/
theorem step_of_opcode_without_operands {s : State} {i : Instr} (hr : s.run = .running) (hpc : s.pc.toNat < 32768)
    (hop : opcodeForm s.cfg.hasIn (readCell s.mem s.pc.toNat) = some (.f0 i)) : step s = exec i s :=
  step_of_fetch hr (State.fetchInstr_eq_ok.mpr ⟨_, hop, hpc, by rw [operandCount]; omega, rfl⟩)

/-- Settles O43: the WMEM completes with the word in its cell, and every fetch and read of that cell finds it there. -/
theorem storeIsSeenByTheNextFetch : Obligations.StoreIsSeenByTheNextFetch := by
  intro s a b va vb t hwf hr hf ha hb hlt h
  rw [step_of_fetch hr hf, exec_wmem_of_lt ha hb hlt, Host.Outcome.next.injEq] at h
  obtain ⟨-, -, -, hfit : s.pc.toNat + 3 ≤ 32768⟩ := encode_of_fetchInstr hf
  have hpc : t.pc.toNat = s.pc.toNat + 3 := by
    rw [← h]
    exact State.advance_pc_toNat _ 3 (show s.pc.toNat + 3 < 65536 by omega)
  have hcell : readCell t.mem va.toNat = vb := by
    rw [← h]
    exact readCell_writeCell_same s.mem va.toNat vb hwf hlt
  have hrun : t.run = .running := by
    rw [← h]
    exact hr
  have hnext : ∀ {i}, va.toNat = t.pc.toNat → opcodeForm t.cfg.hasIn vb = some (.f0 i) → step t = exec i t :=
    fun hva hop => step_of_opcode_without_operands hrun (hva ▸ hlt) (by rw [← hva, hcell, hop])
  refine ⟨State.fetchCell_eq_ok.mpr ⟨hlt, hcell⟩, State.memRead_eq_ok.mpr ⟨hlt, hcell⟩, hpc, ?_, ?_, ?_⟩
  · intro k hva hk
    rw [cellsAtPc_getElem? hk (hva ▸ hlt), ← hva, hcell]
  · rintro hva rfl
    exact hnext (i := .noop) hva rfl
  · rintro hva rfl
    exact hnext (i := .halt) hva rfl

end Sys2Proof.Machine
end

section
/-! The encoding family (`30_encoding.md`): operand words by range and by bits, the decoder and the encoder as inverses
of each other, the lengths, and the words that are no opcode. -/

namespace Sys2Proof

/-! ## Operand words -/

/-- Settles O1: the two lemmas about `decodeDst`, one for each side of R50. -/
theorem destinationWordsClassified : Obligations.DestinationWordsClassified :=
  fun _ => ⟨fun h1 h2 => ⟨_, decodeDst_of_register h1 h2, rfl⟩, decodeDst_of_invalid⟩

/-- Bit 15 of a word is clear below 32768 (R49). -/
theorem word_lt_iff_bit15_clear (w : Word) : w.toNat < 32768 ↔ w.getLsbD 15 = false := by
  have h : w.getLsbD 15 = w.msb := (BitVec.msb_eq_getLsbD_last w).symm
  rw [h, BitVec.msb_eq_false_iff_two_mul_lt]
  omega

/-- The register references are the words with bit 15 set and bits 14 to 3 clear (R49). -/
theorem word_register_iff_bits (w : Word) :
    32768 ≤ w.toNat ∧ w.toNat ≤ 32775 ↔ w.getLsbD 15 = true ∧ w.extractLsb' 3 12 = 0#12 := by
  have h15 : w.getLsbD 15 = true ↔ 32768 ≤ w.toNat := by
    rw [← Bool.not_eq_false, ← word_lt_iff_bit15_clear, Nat.not_lt]
  have hmid : w.extractLsb' 3 12 = 0#12 ↔ w.toNat / 8 % 4096 = 0 := by
    rw [← BitVec.toNat_inj, BitVec.extractLsb'_toNat, Nat.shiftRight_eq_div_pow]
    rfl
  rw [h15, hmid]
  omega

/-- Bits 2 to 0 of a register reference are its index (R49). -/
theorem registerIndex_eq_low_bits {w : Word} (h1 : 32768 ≤ w.toNat) (h2 : w.toNat ≤ 32775) :
    w.toNat - 32768 = (w.extractLsb' 0 3).toNat := by
  rw [BitVec.extractLsb'_toNat, Nat.shiftRight_zero]
  omega

/-- Settles O2: the three lemmas about `decodeSrc`, and the bits of a word in each of its ranges. -/
theorem valueWordsClassified : Obligations.ValueWordsClassified := by
  intro w
  refine ⟨fun h => ⟨_, decodeSrc_of_literal h, ?_, ?_⟩, fun h1 h2 => ⟨_, decodeSrc_of_register h1 h2, rfl⟩,
    decodeSrc_of_invalid, word_lt_iff_bit15_clear w, word_register_iff_bits w, registerIndex_eq_low_bits⟩
  · rw [BitVec.toNat_setWidth, Nat.mod_eq_of_lt h]
  · have hw := encodeSrc_decodeSrc w
    rwa [decodeSrc_of_literal h] at hw

/-! ## The decoder -/

/-- An instruction is built from its own operand words alone (R51). -/
theorem buildInstr_take (f : Form) (ws : List Word) : buildInstr f (ws.take (operandCount f)) = buildInstr f ws := by
  cases f <;> simp [buildInstr, operandCount]

/-- What the decoder does: it looks up the opcode word, takes as many words as the row has operands, and builds the
instruction from them (R46 to R48, R51). -/
theorem decode_cons_eq_ok {hasIn : Bool} {op : Word} {ws rest : List Word} {i : Instr} :
    decode hasIn (op :: ws) = .ok (i, rest) ↔
      ∃ f, opcodeForm hasIn op = some f ∧ operandCount f ≤ ws.length ∧
        i = buildInstr f (ws.take (operandCount f)) ∧ rest = ws.drop (operandCount f) := by
  cases hf : opcodeForm hasIn op with
  | none => simp [decode, hf]
  | some f =>
    by_cases hlen : ws.length < operandCount f
    · simp [decode, hf, hlen]
    · simp [decode, hf, hlen, Nat.not_lt.mp hlen, buildInstr_take, eq_comm]

/-- Settles O4: the words decoded are the opcode word, the operand words that `encode_buildInstr` gives back, and the
rest. -/
theorem encodeOfDecode : Obligations.EncodeOfDecode := by
  intro hasIn ws i rest h
  cases ws with
  | nil => cases h
  | cons op ws =>
    obtain ⟨f, hf, hle, rfl, rfl⟩ := decode_cons_eq_ok.mp h
    obtain ⟨henc, hwf, hpresent, -⟩ := encode_buildInstr hf (List.length_take_of_le hle)
    exact ⟨hwf, hpresent, by rw [henc, List.cons_append, List.take_append_drop]⟩

/-! ## Decoding the words of an instruction, one format after the other (R48) -/

theorem buildInstr_fv_encode {mk : Src → Instr} {a : Src} (h : a.wf = true) :
    buildInstr (.fv mk) [encodeSrc a] = mk a :=
  congrArg mk (decodeSrc_encodeSrc a h)

theorem buildInstr_fd_encode {mk : Dst → Instr} {a : Dst} (h : a.wf = true) :
    buildInstr (.fd mk) [encodeDst a] = mk a :=
  congrArg mk (decodeDst_encodeDst a h)

theorem buildInstr_fdv_encode {mk : Dst → Src → Instr} {a : Dst} {b : Src} (h : (a.wf && b.wf) = true) :
    buildInstr (.fdv mk) [encodeDst a, encodeSrc b] = mk a b := by
  obtain ⟨ha, hb⟩ := Bool.and_eq_true_iff.mp h
  exact congrArg₂ mk (decodeDst_encodeDst a ha) (decodeSrc_encodeSrc b hb)

theorem buildInstr_fvv_encode {mk : Src → Src → Instr} {a b : Src} (h : (a.wf && b.wf) = true) :
    buildInstr (.fvv mk) [encodeSrc a, encodeSrc b] = mk a b := by
  obtain ⟨ha, hb⟩ := Bool.and_eq_true_iff.mp h
  exact congrArg₂ mk (decodeSrc_encodeSrc a ha) (decodeSrc_encodeSrc b hb)

theorem buildInstr_fdvv_encode {mk : Dst → Src → Src → Instr} {a : Dst} {b c : Src}
    (h : (a.wf && b.wf && c.wf) = true) :
    buildInstr (.fdvv mk) [encodeDst a, encodeSrc b, encodeSrc c] = mk a b c := by
  obtain ⟨hab, hc⟩ := Bool.and_eq_true_iff.mp h
  obtain ⟨ha, hb⟩ := Bool.and_eq_true_iff.mp hab
  exact congr (congrArg₂ mk (decodeDst_encodeDst a ha) (decodeSrc_encodeSrc b hb)) (decodeSrc_encodeSrc c hc)

/-- The opcode word of a well-formed instruction of the hardware leads to the row that builds the instruction from its
operand words: the converse of `encode_buildInstr`. -/
theorem exists_form_of_encode {hasIn : Bool} {i : Instr} (hwf : i.wf = true) (hpresent : i.present hasIn = true) :
    ∃ op ops f, encode i = op :: ops ∧ opcodeForm hasIn op = some f ∧ ops.length = operandCount f ∧
      buildInstr f ops = i := by
  cases i with
  | halt | ret | noop => exact ⟨_, _, _, rfl, rfl, rfl, rfl⟩
  | push | jmp | call | out => exact ⟨_, _, _, rfl, rfl, rfl, buildInstr_fv_encode hwf⟩
  | pop => exact ⟨_, _, _, rfl, rfl, rfl, buildInstr_fd_encode hwf⟩
  | in_ =>
    obtain rfl : hasIn = true := hpresent
    exact ⟨_, _, _, rfl, rfl, rfl, buildInstr_fd_encode hwf⟩
  | set | not | rmem => exact ⟨_, _, _, rfl, rfl, rfl, buildInstr_fdv_encode hwf⟩
  | jt | jf | wmem => exact ⟨_, _, _, rfl, rfl, rfl, buildInstr_fvv_encode hwf⟩
  | eq | gt | add | mult | mod | and | or => exact ⟨_, _, _, rfl, rfl, rfl, buildInstr_fdvv_encode hwf⟩

/-- Settles O3: the decoder finds the instruction's row, takes exactly its operand words, and leaves the words after
them. -/
theorem decodeOfEncode : Obligations.DecodeOfEncode := by
  intro hasIn i rest hwf hpresent
  obtain ⟨op, ops, f, henc, hf, hlen, hbuild⟩ := exists_form_of_encode hwf hpresent
  rw [henc, List.cons_append, decode_cons_eq_ok]
  exact ⟨f, hf, by rw [List.length_append]; omega, by rw [List.take_left' hlen, hbuild], (List.drop_left' hlen).symm⟩

/-! ## Lengths -/

/-- The number of operand words of every row of the opcode map (R51). -/
theorem operandCount_of_opcodeForm {hasIn : Bool} {op : Word} {f : Form} (hf : opcodeForm hasIn op = some f) :
    (op.toNat ∈ [0, 18, 21] → operandCount f = 0) ∧
    (op.toNat ∈ [2, 3, 6, 17, 19, 20] → operandCount f = 1) ∧
    (op.toNat ∈ [1, 7, 8, 14, 15, 16] → operandCount f = 2) ∧
    (op.toNat ∈ [4, 5, 9, 10, 11, 12, 13] → operandCount f = 3) := by
  unfold opcodeForm at hf
  split at hf
  -- Opcode 20 is a row only with `HAS_IN`; the last case is the words in no row.
  case h_21 hop =>
    obtain ⟨-, hin⟩ := Option.ite_none_right_eq_some.mp hf
    cases hin
    simp [hop, operandCount]
  case h_23 => cases hf
  all_goals
    rename_i hop
    cases hf
    simp [hop, operandCount]

/-- A word that the opcode map does not hold is refused by name, whatever follows it (R52). -/
theorem decode_cons_of_opcodeForm_eq_none {hasIn : Bool} {op : Word} (ws : List Word)
    (hf : opcodeForm hasIn op = none) : decode hasIn (op :: ws) = .error (.unknownOpcode op) := by
  simp [decode, hf]

/-- Settles O5: the rest is the words after as many operand words as the opcode's row has. -/
theorem lengthFollowsFromOpcode : Obligations.LengthFollowsFromOpcode := by
  intro hasIn op ws
  refine ⟨fun i rest h => ?_, fun hgt => decode_cons_of_opcodeForm_eq_none ws (opcodeForm_of_gt hasIn hgt)⟩
  obtain ⟨f, hf, hle, -, rfl⟩ := decode_cons_eq_ok.mp h
  obtain ⟨h0, h1, h2, h3⟩ := operandCount_of_opcodeForm hf
  refine ⟨fun hop => by rw [h0 hop, List.drop_zero], fun hop => ?_, fun hop => ?_, fun hop => ?_, ?_⟩
  · exact h1 hop ▸ ⟨rfl, hle⟩
  · exact h2 hop ▸ ⟨rfl, hle⟩
  · exact h3 hop ▸ ⟨rfl, hle⟩
  · by_contra hgt
    rw [opcodeForm_of_gt hasIn (Nat.not_le.mp hgt)] at hf
    cases hf

/-- Settles O6, by evaluation: the statement is about seven given numbers. -/
theorem specWordsDecode : Obligations.SpecWordsDecode := by
  unfold Obligations.SpecWordsDecode
  decide

end Sys2Proof

namespace Sys2Proof.Machine

/-- Settles O18: such a word is not in the opcode map, and the fetch takes its Fault before any operand word (R99). -/
theorem unknownOpcodeFaults : Obligations.UnknownOpcodeFaults := by
  intro s hr hpc hop
  have hnone : opcodeForm s.cfg.hasIn (readCell s.mem s.pc.toNat) = none :=
    opcodeForm_eq_none.mpr (hop.imp_right (And.imp_left (congrArg BitVec.toNat)))
  exact step_of_fetch_fault hr (State.fetchInstr_eq_error.mpr (.inr (.inl ⟨hpc, hnone, rfl⟩)))

end Sys2Proof.Machine
end

section
/-! The cycle and operand family (`40_cycle_and_operands.md`): operand resolution, the step as the meaning of the
instruction at `pc`, the default advance, the waits, and input that arrives early. -/

namespace Sys2Proof.Machine

/-! ## Operand resolution -/

/-- A literal word resolves to itself (R60). -/
theorem State.val_decodeSrc_of_literal (s : State) {w : Word} (h : w.toNat < 32768) : s.val (decodeSrc w) = .ok w := by
  have hw : encodeSrc (decodeSrc w) = w := encodeSrc_decodeSrc w
  rw [decodeSrc_of_literal h] at hw ⊢
  exact congrArg Except.ok hw

/-- Settles O15: a literal decodes to its own value, and a register word to the register that `val` reads. -/
theorem valueOperandsResolve : Obligations.ValueOperandsResolve := by
  refine ⟨fun s w h => s.val_decodeSrc_of_literal (by omega), fun s r x hx => ?_⟩
  rw [decodeSrc_registerWord, State.val_reg, hx]

/-- Settles O16: the two sides of `decodeDst`, on each of which `dst` has one answer. -/
theorem destinationOperandsResolve : Obligations.DestinationOperandsResolve := by
  refine fun w => ⟨fun h1 h2 => ⟨⟨w.toNat - 32768, by omega⟩, ?_, rfl⟩, fun h => ?_⟩
  · rw [decodeDst_of_register h1 h2, dst_reg]
  · rw [decodeDst_of_invalid h, dst_bad]

/-! ## The step runs the instruction at the program counter -/

theorem cellsFrom_take (m : Memory) (a : Nat) {k n : Nat} (h : k ≤ n) :
    (cellsFrom m a n).take k = cellsFrom m a k := by
  rw [cellsFrom, ← List.map_take, List.take_range, Nat.min_eq_left h, cellsFrom]

/-- Outside memory there is no cell at `pc`. -/
theorem cellsAtPc_eq_nil {s : State} (hpc : 32768 ≤ s.pc.toNat) : cellsAtPc s = [] := by
  rw [cellsAtPc, Nat.sub_eq_zero_of_le hpc, Nat.min_zero, List.range_zero, List.map_nil]

/-- Stages 1 to 3 fetch what the cells at `pc` decode to (R58, R46). -/
theorem fetchInstr_of_decode_cellsAtPc {s : State} {i : Instr} {rest : List Word}
    (h : decode s.cfg.hasIn (cellsAtPc s) = .ok (i, rest)) : s.fetchInstr = .ok i := by
  by_cases hpc : s.pc.toNat < 32768
  · rw [cellsAtPc_eq_cons hpc] at h
    obtain ⟨f, hf, hle, hi, -⟩ := decode_cons_eq_ok.mp h
    rw [cellsFrom_take _ _ (by simpa using hle)] at hi
    rw [cellsFrom_length] at hle
    exact State.fetchInstr_eq_ok.mpr ⟨f, hf, hpc, by omega, hi⟩
  · rw [cellsAtPc_eq_nil (Nat.not_lt.mp hpc)] at h
    cases h

/-- Settles O17: the instruction decoded is the one fetched. -/
theorem stepRunsDecodedInstruction : Obligations.StepRunsDecodedInstruction :=
  fun _ _ _ hr hdec => step_of_fetch hr (fetchInstr_of_decode_cellsAtPc hdec)

/-- Words placed inside memory are the cells from their address upward. -/
theorem cellsFrom_writeCells {m : Memory} {a : Nat} {ws : List Word} (h : m.wf = true)
    (ha : a + ws.length ≤ addressSpace) : cellsFrom (writeCells m a ws) a ws.length = ws := by
  refine List.ext_getElem (cellsFrom_length _ _ _) fun k _ hk => ?_
  simp only [cellsFrom, List.getElem_map, List.getElem_range]
  exact readCell_writeCells ws m a k h ha hk

/-- Placed words start where four cells are left in memory (log 7). -/
theorem State.placeWords_pc_le (s : State) (ws : List Word) : (s.placeWords ws).pc.toNat + 4 ≤ 32768 := by
  rw [State.placeWords]
  split
  · assumption
  · exact Nat.le_of_ble_eq_true rfl

/-- Four placed words are the cells at the program counter (log 7). -/
theorem cellsAtPc_placeWords {s : State} {ws : List Word} (h : s.mem.wf = true) (hlen : ws.length = 4) :
    cellsAtPc (s.placeWords ws) = ws := by
  have hpc := s.placeWords_pc_le ws
  have hcells : cellsFrom (s.placeWords ws).mem (s.placeWords ws).pc.toNat ws.length = ws :=
    cellsFrom_writeCells h (hlen.symm ▸ hpc)
  rwa [hlen, show 4 = min 4 (32768 - (s.placeWords ws).pc.toNat) by omega] at hcells

/-- The decoder reads a table word as the four words of the number, with IN present (R5). -/
theorem decode_of_decodeTableWord {nbits w : Nat} {i : Instr} (h : decodeTableWord nbits w = some i) :
    ∃ rest, decode true (wordsOfNat (w % 2 ^ nbits)) = .ok (i, rest) := by
  unfold decodeTableWord at h
  split at h
  · rename_i j rest hdec
    cases h
    exact ⟨rest, hdec⟩
  · cases h

/-- Settles O20: the four words placed are the cells at `pc`, and they decode to the instruction. -/
theorem placedWordRuns : Obligations.PlacedWordRuns := by
  intro s nbits w i hwf hin h
  obtain ⟨rest, hdec⟩ := decode_of_decodeTableWord h
  have hcells : cellsAtPc (s.withFetchWord nbits w) = wordsOfNat (w % 2 ^ nbits) := cellsAtPc_placeWords hwf rfl
  have hin' : (s.withFetchWord nbits w).cfg.hasIn = true := hin
  exact stepRunsDecodedInstruction _ i rest rfl (by rw [hin', hcells, hdec])

/-! ## Every step has an outcome -/

theorem exec_answers_next (i : Instr) (s : State) : ∃ t, exec i s = .next t := by
  rw [exec_eq_finish]
  exact finish_answers_next s _

theorem step_answers_next (s : State) : ∃ t, step s = .next t := by
  by_cases hr : s.run = .running
  · cases hf : s.fetchInstr with
    | ok i => rw [step_of_fetch hr hf]; exact exec_answers_next i s
    | error r => exact ⟨_, step_of_fetch_fault hr hf⟩
  · exact ⟨s, step_of_not_running hr⟩

/-- Settles O46: a final state, a Fault of the fetch and every instruction have a next state. -/
theorem everyStepAnswersNext : Obligations.EveryStepAnswersNext :=
  ⟨step_answers_next, exec_answers_next⟩

/-! ## IN and OUT, one outcome at a time -/

/-- IN with a character available moves it into the register (R93). -/
theorem exec_in_of_char {s : State} {c : Byte} {cs : List Byte} (d : Reg) (h : s.inp = c :: cs) :
    exec (.in_ (.reg d)) s = .next ((State.setReg { s with inp := cs } d (c.setWidth 16)).advance 2) := by
  have htake : s.take = .ok (some (c, { s with inp := cs })) := State.take_eq_char.mpr ⟨cs, h, rfl⟩
  simp only [exec_eq_finish, effect, dst_reg, bind_ok, htake, pure, Except.pure, finish_ok]

/-- IN with no character available and more to come waits (R59; log 5). -/
theorem exec_in_of_wait {s : State} (d : Reg) (h : s.inp = []) (hend : s.inpEnded = false) :
    exec (.in_ (.reg d)) s = .next s := by
  have htake : s.take = .ok none := State.take_eq_wait.mpr ⟨h, hend⟩
  simp only [exec_eq_finish, effect, dst_reg, bind_ok, htake, pure, Except.pure, finish_ok]

/-- IN at the end of the stream is `INPUT_END` (R93). -/
theorem exec_in_of_end {s : State} (d : Reg) (h : s.inp = []) (hend : s.inpEnded = true) :
    exec (.in_ (.reg d)) s = .next (s.faultedWith .inputEnd 0#16) := by
  have htake : s.take = .error { cause := .inputEnd, info := 0 } := State.take_eq_error.mpr ⟨h, hend, rfl⟩
  simp only [exec_eq_finish, effect, dst_reg, bind_ok, htake, bind_error, finish_error]
  rfl

/-- OUT with a good operand emits its low byte when the sink is ready, and else waits (R92, R59; log 5). -/
theorem exec_out_of_val {s : State} {a : Src} {va : Word} (h : s.val a = .ok va) :
    exec (.out a) s = .next (if s.sinkReady then (s.emit (lowByte va)).advance 2 else s) := by
  simp only [exec_eq_finish, effect, h, bind_ok, pure, Except.pure, finish_ok]

/-! ## The waits -/

theorem staysWaiting_in_iff {s : State} {d : Reg} :
    staysWaiting s (.in_ (.reg d)) ↔ s.inp = [] ∧ s.inpEnded = false := by
  simp [staysWaiting]

theorem staysWaiting_out_iff {s : State} {a : Src} : staysWaiting s (.out a) ↔ s.sinkReady = false := by
  simp [staysWaiting]

/-- A running engine waits when the instruction it has fetched has good operands and stays where it is (R59). -/
theorem waiting_iff_staysWaiting {s : State} {i : Instr} (hr : s.run = .running) (hf : s.fetchInstr = .ok i) :
    waiting s ↔ i.legal = true ∧ staysWaiting s i := by
  simp only [waiting, hr, hf, Except.ok.injEq, true_and]
  constructor
  · rintro (⟨d, rfl, hin⟩ | ⟨a, rfl, hl, hs⟩)
    · exact ⟨rfl, staysWaiting_in_iff.mpr hin⟩
    · exact ⟨hl, staysWaiting_out_iff.mpr hs⟩
  · rintro ⟨hl, hin | ⟨a, rfl, hs⟩⟩
    · exact .inl hin
    · exact .inr ⟨a, rfl, hl, hs⟩

/-- The step of a waiting engine changes nothing (R59, R107; log 5). -/
theorem step_of_waiting {s : State} (h : waiting s) : step s = .next s := by
  obtain ⟨hr, ⟨d, hf, hinp, hend⟩ | ⟨a, hf, hl, hs⟩⟩ := h
  · rw [step_of_fetch hr hf, exec_in_of_wait d hinp hend]
  · obtain ⟨va, ha⟩ := s.val_of_legal hl
    rw [step_of_fetch hr hf, exec_out_of_val ha, hs]
    rfl

/-! ## The default advance -/

/-- The instruction fetched ends inside memory, so `pc` passes it as a natural number (R14, R63). -/
theorem pc_add_words_toNat {s : State} {i : Instr} (hf : s.fetchInstr = .ok i) :
    (s.pc + BitVec.ofNat 16 i.words).toNat = s.pc.toNat + i.words := by
  obtain ⟨-, -, -, hfit⟩ := encode_of_fetchInstr hf
  exact s.advance_pc_toNat i.words (by omega)

/-- Settles O51: a Fault keeps `pc`, and a completed instruction either waits or has passed its own words. -/
theorem defaultAdvance : Obligations.DefaultAdvance := by
  intro s t i hr hf h
  have hexec : exec i s = .next t := step_of_fetch hr hf ▸ h
  refine ⟨fun hstop => ?_, fun hw => ?_, fun ha hrun hw => ?_⟩
  · rcases exec_cases hexec with hc | ⟨r, -, rfl⟩
    · rcases hc.run with ⟨-, rfl⟩ | ⟨hne, -⟩
      · rfl
      · exact absurd hstop (not_or.mpr ⟨hc.run_ne_faulted hr, hne⟩)
    · rfl
  · rw [step_of_waiting hw, Host.Outcome.next.injEq] at h
    exact h.symm
  · rcases exec_cases hexec with hc | ⟨r, -, rfl⟩
    · rcases hc.pc with ⟨hstay, -⟩ | ⟨-, hpc⟩
      · exact absurd ((waiting_iff_staysWaiting hr hf).mpr ⟨hc.legal, hstay⟩) hw
      · rw [hpc ha, pc_add_words_toNat hf]
    · exact absurd rfl hrun

/-! ## The arrival of a character -/

/-- One more character at the end of the input: what the event `supply` does to a stream that has not ended. -/
def State.supplied (b : Byte) (s : State) : State := { s with inp := s.inp ++ [b] }

theorem envStep_supply_of_not_ended {s : State} (b : Byte) (h : s.inpEnded = false) :
    envStep (.supply b) s = some (s.supplied b) := by
  simp [envStep, h, State.supplied]

section Supplied
variable (b : Byte) (s : State)

@[simp] theorem State.supplied_pc : (s.supplied b).pc = s.pc := rfl

@[simp] theorem State.supplied_fetchInstr : (s.supplied b).fetchInstr = s.fetchInstr :=
  State.fetchInstr_congr rfl rfl rfl

@[simp] theorem State.supplied_val (a : Src) : (s.supplied b).val a = s.val a := State.val_congr rfl a

@[simp] theorem State.supplied_operandsDV (a : Dst) (c : Src) : (s.supplied b).operandsDV a c = s.operandsDV a c := by
  simp only [State.operandsDV, State.supplied_val]

@[simp] theorem State.supplied_operandsVV (a c : Src) : (s.supplied b).operandsVV a c = s.operandsVV a c := by
  simp only [State.operandsVV, State.supplied_val]

@[simp] theorem State.supplied_operandsDVV (a : Dst) (c e : Src) :
    (s.supplied b).operandsDVV a c e = s.operandsDVV a c e := by
  simp only [State.operandsDVV, State.supplied_val]

@[simp] theorem State.supplied_memRead (a : Word) : (s.supplied b).memRead a = s.memRead a := rfl

@[simp] theorem State.supplied_setReg (r : Reg) (w : Word) :
    (s.supplied b).setReg r w = (s.setReg r w).supplied b := rfl

@[simp] theorem State.supplied_setPc (w : Word) : (s.supplied b).setPc w = (s.setPc w).supplied b := rfl

@[simp] theorem State.supplied_advance (n : Nat) : (s.supplied b).advance n = (s.advance n).supplied b := rfl

@[simp] theorem State.supplied_emit (c : Byte) : (s.supplied b).emit c = (s.emit c).supplied b := rfl

@[simp] theorem State.supplied_memWrite (a v : Word) :
    (s.supplied b).memWrite a v = State.supplied b <$> s.memWrite a v := by
  unfold State.memWrite
  split <;> rfl

@[simp] theorem State.supplied_push (v : Word) : (s.supplied b).push v = State.supplied b <$> s.push v := by
  have hfull : (s.supplied b).stackFull = s.stackFull := rfl
  rw [State.push, State.push, hfull]
  split <;> rfl

@[simp] theorem State.supplied_pop : (s.supplied b).pop = Prod.map id (State.supplied b) <$> s.pop := by
  have hstack : (s.supplied b).stack = s.stack := rfl
  rw [State.pop, State.pop, hstack]
  split <;> rfl

@[simp] theorem State.supplied_unaryToReg (f : Word → Word) (a : Dst) (c : Src) :
    (s.supplied b).unaryToReg f a c = State.supplied b <$> s.unaryToReg f a c := by
  simp [State.unaryToReg]

@[simp] theorem State.supplied_binaryToReg (f : Word → Word → Word) (a : Dst) (c e : Src) :
    (s.supplied b).binaryToReg f a c e = State.supplied b <$> s.binaryToReg f a c e := by
  simp [State.binaryToReg]

end Supplied

/-- The next character taken is the same with one more behind it. -/
theorem State.supplied_take {s : State} (b : Byte) (h : s.inp ≠ []) :
    (s.supplied b).take = Option.map (Prod.map id (State.supplied b)) <$> s.take := by
  obtain ⟨c, cs, hinp⟩ := List.exists_cons_of_ne_nil h
  have htake : s.take = .ok (some (c, { s with inp := cs })) := State.take_eq_char.mpr ⟨cs, hinp, rfl⟩
  rw [htake]
  exact State.take_eq_char.mpr ⟨cs ++ [b], congrArg (· ++ [b]) hinp, rfl⟩

/-- An instruction does the same with one more character behind the input, unless it is an IN without input (R66). -/
theorem effect_supplied {s : State} {i : Instr} (b : Byte) (h : ∀ d, i = .in_ (.reg d) → s.inp ≠ []) :
    effect (s.supplied b) i = State.supplied b <$> effect s i := by
  cases i with
  | halt | noop => rfl
  | set | not => exact State.supplied_unaryToReg ..
  | eq | gt | add | mult | and | or => exact State.supplied_binaryToReg ..
  | jmp | push | call | pop | ret | rmem | wmem => simp [effect]
  | mod => simp [effect, apply_ite (State.supplied b <$> ·)]
  | jt | jf => simp [effect, apply_ite (State.supplied b)]
  | out a =>
    simp only [effect, State.supplied_val, State.supplied_emit, State.supplied_advance, map_bind, map_pure,
      apply_ite (State.supplied b)]
    rfl
  | in_ a =>
    cases a with
    | bad w => rfl
    | reg d =>
      simp only [effect, dst_reg, bind_ok, State.supplied_take b (h d rfl), bind_map_left, map_bind]
      exact bind_congr fun o => by cases o <;> rfl

/-- A finished instruction with one more character behind the input (R64, R66). -/
theorem finish_supplied {s t : State} {x : Except Raise State} (b : Byte) (h : finish s x = .next t) :
    finish (s.supplied b) (State.supplied b <$> x) = .next (t.supplied b) := by
  rcases finish_cases h with rfl | ⟨r, rfl, rfl⟩
  · rfl
  · rfl

/-- Settles O56: the same instruction is fetched, and unless it waits for input it does the same. -/
theorem earlyInputChangesNoResult : Obligations.EarlyInputChangesNoResult := by
  intro s t b hend hw h
  change step (s.supplied b) = .next (t.supplied b)
  rcases step_cases h with ⟨hne, rfl⟩ | ⟨hr, r, hf, rfl⟩ | ⟨hr, i, hf, he⟩
  · exact step_of_not_running hne
  · exact step_of_fetch_fault (s := s.supplied b) hr ((s.supplied_fetchInstr b).trans hf)
  · have hin : ∀ d, i = .in_ (.reg d) → s.inp ≠ [] := by
      rintro d rfl hinp
      exact hw ⟨hr, .inl ⟨d, hf, hinp, hend⟩⟩
    have hstep : step (s.supplied b) = exec i (s.supplied b) :=
      step_of_fetch (s := s.supplied b) hr ((s.supplied_fetchInstr b).trans hf)
    rw [exec_eq_finish] at he
    rw [hstep, exec_eq_finish, effect_supplied b hin]
    exact finish_supplied b he

/-! ## The end of a wait -/

/-- A waiting IN has no character, and the stream has not ended (R59). -/
theorem input_of_waiting_in {s : State} {d : Reg} (h : waiting s) (hf : s.fetchInstr = .ok (.in_ (.reg d))) :
    s.inp = [] ∧ s.inpEnded = false :=
  staysWaiting_in_iff.mp ((waiting_iff_staysWaiting h.1 hf).mp h).2

/-- An event of the environment other than reset leaves the instruction that a running engine executes next (R28). -/
theorem step_after_event {e : EnvEvent} {s s' : State} {i : Instr} (he : ∀ image, e ≠ .reset image)
    (h : envStep e s = some s') (hr : s.run = .running) (hf : s.fetchInstr = .ok i) : step s' = exec i s' := by
  obtain ⟨hs', -⟩ := envStep_input_only he h
  have hrun : s'.run = .running := by rw [hs', hr]
  have hfetch : s'.fetchInstr = s.fetchInstr :=
    State.fetchInstr_congr (by rw [hs']) (by rw [hs']) (by rw [hs'])
  exact step_of_fetch hrun (hfetch.trans hf)

/-- Settles O57: each event gives the instruction at `pc` what it waits for, and the step then executes it. -/
theorem waitsEndByTheNamedEvent : Obligations.WaitsEndByTheNamedEvent := by
  intro s hw
  have hr : s.run = .running := hw.1
  refine ⟨step_of_waiting hw, fun d b s' hf h => ?_, fun d s' hf h => ?_, fun a va s' hf ha h => ?_⟩
  · obtain ⟨hinp, hend⟩ := input_of_waiting_in hw hf
    rw [step_after_event (by simp) h hr hf]
    rw [envStep_supply_of_not_ended b hend, Option.some.injEq] at h
    have hchar : s'.inp = [b] := by rw [← h, State.supplied, hinp, List.nil_append]
    refine ⟨_, exec_in_of_char d hchar, ?_, rfl, by rw [← h]; rfl⟩
    rw [State.advance_reg, State.reg_setReg_same, BitVec.toNat_setWidth]
    omega
  · obtain ⟨hinp, -⟩ := input_of_waiting_in hw hf
    rw [step_after_event (by simp) h hr hf]
    cases h
    exact exec_in_of_end d hinp rfl
  · rw [step_after_event (by simp) h hr hf]
    cases h
    have ha' : State.val { s with sinkReady := true } a = .ok va := (State.val_congr rfl a).trans ha
    exact ⟨_, _, exec_out_of_val ha', rfl, lowByte_toNat va, rfl⟩

end Sys2Proof.Machine
end

section
/-! The data movement family (`41_data_movement.md`): SET, PUSH and POP, one outcome at a time. -/

namespace Sys2Proof.Machine

/-! ## From the effect to the meaning -/

theorem exec_of_effect_ok {s t : State} {i : Instr} (h : effect s i = .ok t) : exec i s = .next t := by
  rw [exec_eq_finish, h, finish_ok]

theorem exec_of_effect_error {s : State} {i : Instr} {r : Raise} (h : effect s i = .error r) :
    exec i s = .next (s.faultedWith r.cause r.info) := by
  rw [exec_eq_finish, h, finish_error, State.takeFault_eq]

/-! ## One register written -/

/-- A register write and an advance leave everything but that register and `pc` (R11, R63). -/
theorem onlyRegAndPc_setReg_advance (s : State) (d : Reg) (w : Word) (n : Nat) :
    onlyRegAndPc d s ((s.setReg d w).advance n) :=
  ⟨rfl, fun _ hr => State.reg_setReg_other s d w hr⟩

/-- An instruction whose effect is `unaryToReg g` meets the rule of format FDV for `f`, where `g` is `f` on words. -/
theorem unaryRule_of_effect {mk : Dst → Src → Instr} {op : Word} {f : Nat → Nat} {g : Word → Word}
    (henc : ∀ a b, encode (mk a b) = [op, encodeDst a, encodeSrc b])
    (heff : ∀ s a b, effect s (mk a b) = s.unaryToReg g a b) (hfg : ∀ w, (g w).toNat = f w.toNat) :
    unaryRule mk op f := by
  refine ⟨henc, fun s w b => ?_, fun s d w => ?_, fun s d b vb hb => ?_⟩
  · exact exec_of_effect_error ((heff ..).trans (State.unaryToReg_eq_error.mpr (.inl (dst_bad w))))
  · exact exec_of_effect_error ((heff ..).trans (State.unaryToReg_eq_error.mpr (.inr ⟨⟨d, rfl⟩, s.val_bad w⟩)))
  · refine ⟨_, exec_of_effect_ok ((heff ..).trans (State.unaryToReg_eq_ok.mpr ⟨d, vb, rfl, hb, rfl⟩)), ?_, rfl,
      onlyRegAndPc_setReg_advance s d (g vb) 3⟩
    rw [State.advance_reg, State.reg_setReg_same, hfg]

/-- Settles O21: the effect of SET is `unaryToReg` with the identity. -/
theorem setRule : Obligations.SetRule :=
  unaryRule_of_effect (g := id) (fun _ _ => rfl) (fun _ _ _ => rfl) (fun _ => rfl)

/-! ## PUSH -/

/-- A finite depth that the stack has reached is full (R17). -/
theorem State.stackFull_of_depth_eq {s : State} (h : s.cfg.stackDepth = some s.stack.length) : s.stackFull = true :=
  State.stackFull_eq_true.mpr ⟨_, h, le_rfl⟩

/-- PUSH with room on the stack appends its value (R69). -/
theorem exec_push_of_room {s : State} {a : Src} {va : Word} (ha : s.val a = .ok va) (hroom : s.stackFull = false) :
    exec (.push a) s = .next (State.advance { s with stack := s.stack ++ [va] } 2) := by
  have hpush : s.push va = .ok { s with stack := s.stack ++ [va] } := State.push_eq_ok.mpr ⟨hroom, rfl⟩
  apply exec_of_effect_ok
  simp only [effect, ha, bind_ok, hpush, pure, Except.pure]

/-- PUSH on a full stack is `STACK_OVERFLOW` (R69; decision D6). -/
theorem exec_push_of_full {s : State} {a : Src} {va : Word} (ha : s.val a = .ok va) (hfull : s.stackFull = true) :
    exec (.push a) s = .next (s.faultedWith .stackOverflow 0#16) := by
  have hpush : s.push va = .error { cause := .stackOverflow, info := 0 } := State.push_eq_error.mpr ⟨hfull, rfl⟩
  apply exec_of_effect_error (r := { cause := .stackOverflow, info := 0 })
  simp only [effect, ha, bind_ok, hpush, bind_error]

/-- A bad value operand of PUSH is its Fault, before the stack is looked at (R60, R99). -/
theorem exec_push_of_bad (s : State) (w : Word) :
    exec (.push (.bad w)) s = .next (s.faultedWith .badValueOperand w) := by
  apply exec_of_effect_error (r := { cause := .badValueOperand, info := w })
  simp only [effect, State.val_bad, bind_error]

/-- Settles O22: PUSH with a bad operand, with room below the depth, and at the depth. -/
theorem pushRule : Obligations.PushRule :=
  ⟨⟨fun _ => rfl, exec_push_of_bad⟩, fun _ _ _ ha =>
    ⟨fun hroom => ⟨_, exec_push_of_room ha (State.stackFull_eq_false.mpr hroom), rfl, rfl, rfl⟩,
      fun hdepth => exec_push_of_full ha (State.stackFull_of_depth_eq hdepth)⟩⟩

/-! ## POP -/

/-- POP moves the top entry into its register (R70). -/
theorem exec_pop_of_append {s : State} {rest : List Word} {top : Word} (d : Reg) (h : s.stack = rest ++ [top]) :
    exec (.pop (.reg d)) s = .next ((State.setReg { s with stack := rest } d top).advance 2) := by
  have hpop : s.pop = .ok (top, { s with stack := rest }) := State.pop_eq_ok.mpr ⟨rest, h, rfl⟩
  apply exec_of_effect_ok
  simp only [effect, dst_reg, bind_ok, hpop, pure, Except.pure]

/-- POP on an empty stack is `STACK_UNDERFLOW` (R70). -/
theorem exec_pop_of_nil {s : State} (d : Reg) (h : s.stack = []) :
    exec (.pop (.reg d)) s = .next (s.faultedWith .stackUnderflow 0#16) := by
  have hpop : s.pop = .error { cause := .stackUnderflow, info := 0 } := State.pop_eq_error.mpr ⟨h, rfl⟩
  apply exec_of_effect_error (r := { cause := .stackUnderflow, info := 0 })
  simp only [effect, dst_reg, bind_ok, hpop, bind_error]

/-- A bad destination of POP is its Fault, whatever the stack (R61, R99). -/
theorem exec_pop_of_bad (s : State) (w : Word) :
    exec (.pop (.bad w)) s = .next (s.faultedWith .badDestination w) := by
  apply exec_of_effect_error (r := { cause := .badDestination, info := w })
  simp only [effect, dst_bad, bind_error]

/-- Settles O23: POP with a bad destination, on a stack with a top entry, and on an empty one. -/
theorem popRule : Obligations.PopRule := by
  refine ⟨⟨fun _ => rfl, exec_pop_of_bad⟩, fun s d rest top h => ?_, fun _ d => exec_pop_of_nil d⟩
  refine ⟨_, exec_pop_of_append d h, ?_, rfl, rfl, rfl, fun r hr => ?_⟩
  · rw [State.advance_reg, State.reg_setReg_same]
  · exact State.reg_setReg_other _ d top hr

end Sys2Proof.Machine
end

section
/-! The comparison family (`42_compare.md`): the rule of format FDVV, and its two instances EQ and GT. -/

namespace Sys2Proof.Machine

/-! ## One register written from two values -/

/-- An instruction that starts with the operands of format FDVV raises their Faults in position order (R60, R99). -/
theorem badOperandsDVV_of_effect {mk : Dst → Src → Src → Instr}
    (heff : ∀ s a b c r, s.operandsDVV a b c = .error r → effect s (mk a b c) = .error r) : badOperandsDVV mk := by
  refine ⟨fun s w b c => ?_, fun s d w c => ?_, fun s d b w hb => ?_⟩
  · exact exec_of_effect_error (heff _ _ _ _ _ (State.operandsDVV_eq_error.mpr (.inl (dst_bad w))))
  · exact exec_of_effect_error
      (heff _ _ _ _ _ (State.operandsDVV_eq_error.mpr (.inr ⟨⟨d, rfl⟩, .inl (s.val_bad w)⟩)))
  · exact exec_of_effect_error
      (heff _ _ _ _ _ (State.operandsDVV_eq_error.mpr (.inr ⟨⟨d, rfl⟩, .inr ⟨s.val_of_legal hb, s.val_bad w⟩⟩)))

/-- An instruction whose effect is `binaryToReg g` meets the rule of format FDVV for `f`, where `g` is `f` on words. -/
theorem binaryRule_of_effect {mk : Dst → Src → Src → Instr} {op : Word} {f : Nat → Nat → Nat} {g : Word → Word → Word}
    (henc : ∀ a b c, encode (mk a b c) = [op, encodeDst a, encodeSrc b, encodeSrc c])
    (heff : ∀ s a b c, effect s (mk a b c) = s.binaryToReg g a b c)
    (hfg : ∀ v w, (g v w).toNat = f v.toNat w.toNat) : binaryRule mk op f := by
  refine ⟨henc, badOperandsDVV_of_effect fun s a b c r h => ?_, fun s d b c vb vc hb hc => ?_⟩
  · exact (heff ..).trans (State.binaryToReg_eq_error.mpr (State.operandsDVV_eq_error.mp h))
  · refine ⟨_, exec_of_effect_ok ((heff ..).trans (State.binaryToReg_eq_ok.mpr ⟨d, vb, vc, rfl, hb, hc, rfl⟩)), ?_, rfl,
      onlyRegAndPc_setReg_advance s d (g vb vc) 4⟩
    rw [State.advance_reg, State.reg_setReg_same, hfg]

/-! ## EQ and GT -/

/-- A truth value as a number (R71, R72). -/
theorem truthWord_decide_toNat (p : Prop) [Decidable p] : (truthWord (decide p)).toNat = if p then 1 else 0 := by
  by_cases h : p
  · simp [truthWord, h]
  · simp [truthWord, h]

/-- Two words are equal when all 16 bits are, which is equality of their numbers (R71; decision D5). -/
theorem eqWord_toNat (v w : Word) : (eqWord v w).toNat = if v.toNat = w.toNat then 1 else 0 := by
  simp only [eqWord, truthWord_decide_toNat, BitVec.toNat_inj]

/-- The order of GT is that of the unsigned numbers (R72; decision D5). -/
theorem gtWord_toNat (v w : Word) : (gtWord v w).toNat = if w.toNat < v.toNat then 1 else 0 :=
  truthWord_decide_toNat _

/-- Settles O24: the effect of EQ is `binaryToReg` with `eqWord`. -/
theorem eqRule : Obligations.EqRule :=
  binaryRule_of_effect (fun _ _ _ => rfl) (fun _ _ _ _ => rfl) eqWord_toNat

/-- Settles O25: the effect of GT is `binaryToReg` with `gtWord`. -/
theorem gtRule : Obligations.GtRule :=
  binaryRule_of_effect (fun _ _ _ => rfl) (fun _ _ _ _ => rfl) gtWord_toNat

end Sys2Proof.Machine
end

section
/-! The control family (`43_control.md`): HALT, NOOP, the jumps, CALL and RET, one outcome at a time. -/

namespace Sys2Proof.Machine

/-! ## Bad value operands -/

/-- An instruction that starts with the operand of format FV raises its Fault (R60, R99). -/
theorem badOperandV_of_effect {mk : Src → Instr} {op : Word} (henc : ∀ a, encode (mk a) = [op, encodeSrc a])
    (heff : ∀ s a r, s.val a = .error r → effect s (mk a) = .error r) : badOperandV mk op :=
  ⟨henc, fun s w => exec_of_effect_error (heff _ _ _ (s.val_bad w))⟩

/-- An instruction that starts with the operands of format FVV raises their Faults in position order (R60, R99). -/
theorem badOperandsVV_of_effect {mk : Src → Src → Instr} {op : Word}
    (henc : ∀ a b, encode (mk a b) = [op, encodeSrc a, encodeSrc b])
    (heff : ∀ s a b r, s.operandsVV a b = .error r → effect s (mk a b) = .error r) : badOperandsVV mk op := by
  refine ⟨henc, fun s w b => ?_, fun s a w ha => ?_⟩
  · exact exec_of_effect_error (heff _ _ _ _ (State.operandsVV_eq_error.mpr (.inl (s.val_bad w))))
  · exact exec_of_effect_error
      (heff _ _ _ _ (State.operandsVV_eq_error.mpr (.inr ⟨s.val_of_legal ha, s.val_bad w⟩)))

/-! ## HALT and NOOP -/

/-- HALT changes only `run` (R73; decision D7). -/
theorem exec_halt (s : State) : exec .halt s = .next s.halt := exec_of_effect_ok rfl

/-- NOOP only advances `pc` (R79). -/
theorem exec_noop (s : State) : exec .noop s = .next (s.advance 1) := exec_of_effect_ok rfl

/-- Settles O26: the two effects, which no operand and no state can turn into a Fault. -/
theorem haltAndNoopRule : Obligations.HaltAndNoopRule :=
  ⟨rfl, rfl, fun s => ⟨exec_halt s, exec_noop s⟩⟩

/-! ## JMP -/

/-- JMP with a good operand writes it to `pc` (R74). -/
theorem exec_jmp_of_val {s : State} {a : Src} {va : Word} (ha : s.val a = .ok va) :
    exec (.jmp a) s = .next (s.setPc va) := by
  apply exec_of_effect_ok
  simp only [effect, ha, bind_ok, pure, Except.pure]

/-- Settles O27: JMP with a bad operand and with a good one. -/
theorem jmpRule : Obligations.JmpRule := by
  refine ⟨badOperandV_of_effect (fun _ => rfl) fun s a r h => ?_, fun _ _ _ => exec_jmp_of_val⟩
  simp only [effect, h, bind_error]

/-! ## JT and JF -/

/-- The condition of JT and JF is the whole word (R75, R76). -/
theorem isTrueWord_iff {w : Word} : isTrueWord w = true ↔ w ≠ 0#16 := decide_eq_true_iff

/-- JT with good operands jumps on a condition that is not 0, and else passes its words (R75). -/
theorem exec_jt_of_vals {s : State} {a b : Src} {va vb : Word} (ha : s.val a = .ok va) (hb : s.val b = .ok vb) :
    exec (.jt a b) s = .next (if va ≠ 0#16 then s.setPc vb else s.advance 3) := by
  have hops : s.operandsVV a b = .ok (va, vb) := State.operandsVV_eq_ok.mpr ⟨ha, hb⟩
  apply exec_of_effect_ok
  simp only [effect, hops, bind_ok, isTrueWord_iff, pure, Except.pure]

/-- JF with good operands passes its words on a condition that is not 0, and else jumps (R76). -/
theorem exec_jf_of_vals {s : State} {a b : Src} {va vb : Word} (ha : s.val a = .ok va) (hb : s.val b = .ok vb) :
    exec (.jf a b) s = .next (if va ≠ 0#16 then s.advance 3 else s.setPc vb) := by
  have hops : s.operandsVV a b = .ok (va, vb) := State.operandsVV_eq_ok.mpr ⟨ha, hb⟩
  apply exec_of_effect_ok
  simp only [effect, hops, bind_ok, isTrueWord_iff, pure, Except.pure]

/-- Settles O28: both operands are decoded before the condition is tested (decision D11), which then chooses
the next `pc`. -/
theorem conditionalJumpRule : Obligations.ConditionalJumpRule := by
  refine ⟨badOperandsVV_of_effect (fun _ _ => rfl) fun s a b r h => ?_,
    badOperandsVV_of_effect (fun _ _ => rfl) fun s a b r h => ?_, fun s a b va vb ha hb => ?_⟩
  · simp only [effect, h, bind_error]
  · simp only [effect, h, bind_error]
  · rw [exec_jt_of_vals ha hb, exec_jf_of_vals ha hb]
    refine ⟨fun hne => ?_, fun hz => ?_⟩
    · rw [if_pos hne, if_pos hne]
      exact ⟨rfl, rfl⟩
    · rw [if_neg (not_not_intro hz), if_neg (not_not_intro hz)]
      exact ⟨rfl, rfl⟩

/-! ## CALL -/

/-- CALL with room on the stack appends the address after it and jumps (R77). -/
theorem exec_call_of_room {s : State} {a : Src} {va : Word} (ha : s.val a = .ok va) (hroom : s.stackFull = false) :
    exec (.call a) s = .next { s with stack := s.stack ++ [s.pc + 2#16], pc := va } := by
  have hpush : s.push (s.pc + 2#16) = .ok { s with stack := s.stack ++ [s.pc + 2#16] } :=
    State.push_eq_ok.mpr ⟨hroom, rfl⟩
  apply exec_of_effect_ok
  simp only [effect, ha, bind_ok, hpush, State.setPc, pure, Except.pure]

/-- CALL on a full stack is `STACK_OVERFLOW` (R77; decision D6). -/
theorem exec_call_of_full {s : State} {a : Src} {va : Word} (ha : s.val a = .ok va) (hfull : s.stackFull = true) :
    exec (.call a) s = .next (s.faultedWith .stackOverflow 0#16) := by
  have hpush : s.push (s.pc + 2#16) = .error { cause := .stackOverflow, info := 0 } :=
    State.push_eq_error.mpr ⟨hfull, rfl⟩
  apply exec_of_effect_error (r := { cause := .stackOverflow, info := 0 })
  simp only [effect, ha, bind_ok, hpush, bind_error]

/-- Settles O29: CALL with a bad operand, with room below the depth, and at the depth. -/
theorem callRule : Obligations.CallRule := by
  refine ⟨badOperandV_of_effect (fun _ => rfl) fun s a r h => ?_,
    fun s a va ha => ⟨fun hroom => ?_, fun hdepth => ?_⟩⟩
  · simp only [effect, h, bind_error]
  · exact ⟨_, s.pc + 2#16, exec_call_of_room ha (State.stackFull_eq_false.mpr hroom), rfl,
      fun hpc => s.advance_pc_toNat 2 (by omega), rfl, rfl, rfl⟩
  · exact exec_call_of_full ha (State.stackFull_of_depth_eq hdepth)

/-! ## RET -/

/-- RET moves the top entry into `pc` (R78). -/
theorem exec_ret_of_append {s : State} {rest : List Word} {top : Word} (h : s.stack = rest ++ [top]) :
    exec .ret s = .next { s with stack := rest, pc := top } := by
  have hpop : s.pop = .ok (top, { s with stack := rest }) := State.pop_eq_ok.mpr ⟨rest, h, rfl⟩
  apply exec_of_effect_ok
  simp only [effect, bind_ok, hpop, State.setPc, pure, Except.pure]

/-- RET on an empty stack is `STACK_UNDERFLOW` (R78). -/
theorem exec_ret_of_nil {s : State} (h : s.stack = []) :
    exec .ret s = .next (s.faultedWith .stackUnderflow 0#16) := by
  have hpop : s.pop = .error { cause := .stackUnderflow, info := 0 } := State.pop_eq_error.mpr ⟨h, rfl⟩
  apply exec_of_effect_error (r := { cause := .stackUnderflow, info := 0 })
  simp only [effect, hpop, bind_error]

/-- Settles O30: RET on a stack with a top entry, and on an empty one. -/
theorem retRule : Obligations.RetRule :=
  ⟨rfl, fun _ _ _ => exec_ret_of_append, fun _ => exec_ret_of_nil⟩

/-! ## CALL and PUSH, and what takes their entry again -/

/-- Settles O31: CALL and PUSH leave their entry on top of the old stack, where RET and POP find it (R80). -/
theorem callAndReturnRoundTrip : Obligations.CallAndReturnRoundTrip := by
  refine ⟨fun s a va t ha hroom h => ?_, fun s a va t ha hroom h => ?_⟩
  · rw [exec_call_of_room ha hroom, Host.Outcome.next.injEq] at h
    have hstack : t.stack = s.stack ++ [s.pc + 2#16] := by rw [← h]
    refine ⟨by rw [← h], fun u hu => exec_ret_of_append (hu.trans hstack), fun u d hu => ?_⟩
    refine ⟨_, exec_pop_of_append d (hu.trans hstack), ?_, rfl⟩
    rw [State.advance_reg, State.reg_setReg_same]
  · rw [exec_push_of_room ha hroom, Host.Outcome.next.injEq] at h
    exact exec_ret_of_append (by rw [← h, State.advance_stack])

end Sys2Proof.Machine
end

section
/-! The arithmetic and logic family (`44_arithmetic_logic.md`): what the formulas are on numbers, the six rules, and
the laws that follow from them. -/

namespace Sys2Proof.Machine

/-! ## The formulas as natural numbers -/

/-- ADD on numbers (R81). -/
theorem addWord_toNat (v w : Word) : (addWord v w).toNat = (v.toNat + w.toNat) % 32768 := by
  rw [addWord, valueSpace, BitVec.toNat_ofNat]
  omega

/-- MULT on numbers (R82). -/
theorem multWord_toNat (v w : Word) : (multWord v w).toNat = (v.toNat * w.toNat) % 32768 := by
  rw [multWord, valueSpace, BitVec.toNat_ofNat]
  omega

/-- A remainder is at most its dividend, so it fits in a word (R83). -/
theorem modWord_toNat (v w : Word) : (modWord v w).toNat = v.toNat % w.toNat := by
  rw [modWord, BitVec.toNat_ofNat]
  exact Nat.mod_eq_of_lt ((Nat.mod_le _ _).trans_lt v.isLt)

/-- The mask of NOT keeps the low 15 bits of the complement (R86). -/
theorem notWord_toNat (v : Word) : (notWord v).toNat = 32767 - v.toNat % 32768 := by
  have hmask : mask15.toNat = 2 ^ 15 - 1 := rfl
  have hv := v.isLt
  rw [notWord, BitVec.toNat_and, BitVec.toNat_not, hmask, Nat.and_two_pow_sub_one_eq_mod]
  omega

/-! ## The rules -/

/-- Settles O32: the effect of ADD is `binaryToReg` with `addWord`. -/
theorem addRule : Obligations.AddRule :=
  binaryRule_of_effect (fun _ _ _ => rfl) (fun _ _ _ _ => rfl) addWord_toNat

/-- Settles O33: the effect of MULT is `binaryToReg` with `multWord`. -/
theorem multRule : Obligations.MultRule :=
  binaryRule_of_effect (fun _ _ _ => rfl) (fun _ _ _ _ => rfl) multWord_toNat

/-- Settles O35: the effect of AND is `binaryToReg` with `andWord`. -/
theorem andRule : Obligations.AndRule :=
  binaryRule_of_effect (fun _ _ _ => rfl) (fun _ _ _ _ => rfl) BitVec.toNat_and

/-- Settles O36: the effect of OR is `binaryToReg` with `orWord`. -/
theorem orRule : Obligations.OrRule :=
  binaryRule_of_effect (fun _ _ _ => rfl) (fun _ _ _ _ => rfl) BitVec.toNat_or

/-- Settles O37: the effect of NOT is `unaryToReg` with `notWord`. -/
theorem notRule : Obligations.NotRule :=
  unaryRule_of_effect (fun _ _ => rfl) (fun _ _ _ => rfl) notWord_toNat

/-- MOD with a divisor that is not 0 writes the remainder (R83). -/
theorem exec_mod_of_ne_zero {s : State} {b c : Src} {vb vc : Word} (d : Reg) (hb : s.val b = .ok vb)
    (hc : s.val c = .ok vc) (hne : vc ≠ 0#16) :
    exec (.mod (.reg d) b c) s = .next ((s.setReg d (modWord vb vc)).advance 4) := by
  have hops : s.operandsDVV (.reg d) b c = .ok (d, vb, vc) := State.operandsDVV_eq_ok.mpr ⟨rfl, hb, hc⟩
  apply exec_of_effect_ok
  simp only [effect, hops, bind_ok, if_neg hne, pure, Except.pure]

/-- MOD with a divisor of 0 is `DIVIDE_BY_ZERO` (R83). -/
theorem exec_mod_of_zero {s : State} {b c : Src} {vb : Word} (d : Reg) (hb : s.val b = .ok vb)
    (hc : s.val c = .ok 0#16) : exec (.mod (.reg d) b c) s = .next (s.faultedWith .divideByZero 0#16) := by
  have hops : s.operandsDVV (.reg d) b c = .ok (d, vb, 0#16) := State.operandsDVV_eq_ok.mpr ⟨rfl, hb, hc⟩
  apply exec_of_effect_error (r := { cause := .divideByZero, info := 0#16 })
  simp only [effect, hops, bind_ok, if_true]

/-- Settles O34: MOD decodes its operands first, and its divisor then decides between the remainder and the Fault. -/
theorem modRule : Obligations.ModRule := by
  refine ⟨fun _ _ _ => rfl, badOperandsDVV_of_effect fun s a b c r h => ?_,
    fun s d b c vb vc hb hc => ⟨fun hne => ?_, fun hz => ?_⟩⟩
  · simp only [effect, h, bind_error]
  · refine ⟨_, exec_mod_of_ne_zero d hb hc hne, ?_, rfl, onlyRegAndPc_setReg_advance s d _ 4⟩
    rw [State.advance_reg, State.reg_setReg_same, modWord_toNat]
  · exact exec_mod_of_zero d hb (hz ▸ hc)

/-! ## In-range values give in-range results -/

/-- The instruction completes with an in-range value in register `d`, and takes no Fault (R87). -/
def CompletesInRange (s : State) (d : Reg) (i : Instr) : Prop :=
  ∃ t, exec i s = .next t ∧ (t.reg d).toNat < 32768 ∧ t.run = s.run ∧ t.fault = s.fault

theorem onlyRegAndPc.run_eq {d : Reg} {s t : State} (h : onlyRegAndPc d s t) : t.run = s.run := by rw [h.1]

theorem onlyRegAndPc.fault_eq {d : Reg} {s t : State} (h : onlyRegAndPc d s t) : t.fault = s.fault := by rw [h.1]

/-- An instruction under the rule of format FDV completes in range where its formula does. -/
theorem unaryRule.completesInRange {mk : Dst → Src → Instr} {op : Word} {f : Nat → Nat} (h : unaryRule mk op f)
    {s : State} (d : Reg) {b : Src} {vb : Word} (hb : s.val b = .ok vb) (hf : f vb.toNat < 32768) :
    CompletesInRange s d (mk (.reg d) b) := by
  obtain ⟨-, -, -, hrun⟩ := h
  obtain ⟨t, ht, hreg, -, hframe⟩ := hrun s d b vb hb
  exact ⟨t, ht, hreg ▸ hf, hframe.run_eq, hframe.fault_eq⟩

/-- An instruction under the rule of format FDVV completes in range where its formula does. -/
theorem binaryRule.completesInRange {mk : Dst → Src → Src → Instr} {op : Word} {f : Nat → Nat → Nat}
    (h : binaryRule mk op f) {s : State} (d : Reg) {b c : Src} {vb vc : Word} (hb : s.val b = .ok vb)
    (hc : s.val c = .ok vc) (hf : f vb.toNat vc.toNat < 32768) : CompletesInRange s d (mk (.reg d) b c) := by
  obtain ⟨-, -, hrun⟩ := h
  obtain ⟨t, ht, hreg, -, hframe⟩ := hrun s d b c vb vc hb hc
  exact ⟨t, ht, hreg ▸ hf, hframe.run_eq, hframe.fault_eq⟩

/-- MOD completes in range for an in-range dividend and a divisor that is not 0. -/
theorem mod_completesInRange {s : State} (d : Reg) {b c : Src} {vb vc : Word} (hb : s.val b = .ok vb)
    (hc : s.val c = .ok vc) (hvb : vb.toNat < 32768) (hne : vc ≠ 0#16) :
    CompletesInRange s d (.mod (.reg d) b c) := by
  obtain ⟨-, -, hrun⟩ := modRule
  obtain ⟨t, ht, hreg, -, hframe⟩ := (hrun s d b c vb vc hb hc).1 hne
  exact ⟨t, ht, hreg ▸ (Nat.mod_le _ _).trans_lt hvb, hframe.run_eq, hframe.fault_eq⟩

/-- The instructions of format FDVV other than MOD complete in range for all in-range values, 0 included. -/
theorem binary_completesInRange {s : State} (d : Reg) {b c : Src} {vb vc : Word} (hb : s.val b = .ok vb)
    (hc : s.val c = .ok vc) (hvb : vb.toNat < 32768) (hvc : vc.toNat < 32768) :
    ∀ i ∈ [Instr.add (.reg d) b c, .mult (.reg d) b c, .and (.reg d) b c, .or (.reg d) b c, .eq (.reg d) b c,
      .gt (.reg d) b c], CompletesInRange s d i := by
  simp only [List.forall_mem_cons]
  refine ⟨addRule.completesInRange d hb hc (Nat.mod_lt _ (by decide)),
    multRule.completesInRange d hb hc (Nat.mod_lt _ (by decide)),
    andRule.completesInRange d hb hc (Nat.and_le_left.trans_lt hvb),
    orRule.completesInRange d hb hc (Nat.or_lt_two_pow (n := 15) hvb hvc),
    eqRule.completesInRange d hb hc ?_, gtRule.completesInRange d hb hc ?_, List.forall_mem_nil _⟩
  · split <;> decide
  · split <;> decide

/-- Settles O38: each formula stays below 32768 on in-range values, and only MOD looks at a divisor of 0. -/
theorem inRangeValuesGiveInRangeResults : Obligations.InRangeValuesGiveInRangeResults := by
  intro s d b c vb vc hb hc hvb hvc hne
  refine ⟨?_, fun z hz => binary_completesInRange d hb hz hvb (by decide)⟩
  have hbin := binary_completesInRange d hb hc hvb hvc
  have hmod := mod_completesInRange d hb hc hvb hne
  have hnot : CompletesInRange s d (.not (.reg d) b) := notRule.completesInRange d hb (by omega)
  simp only [List.forall_mem_cons] at hbin ⊢
  obtain ⟨hadd, hmult, hand, hor, heq, hgt, hnil⟩ := hbin
  exact ⟨hadd, hmult, hmod, hand, hor, hnot, heq, hgt, hnil⟩

/-! ## The algebra of the formulas -/

theorem addWord_comm (v w : Word) : addWord v w = addWord w v := by rw [addWord, addWord, Nat.add_comm]

theorem multWord_comm (v w : Word) : multWord v w = multWord w v := by rw [multWord, multWord, Nat.mul_comm]

theorem addWord_assoc (x y z : Word) : addWord (addWord x y) z = addWord x (addWord y z) := by
  apply BitVec.eq_of_toNat_eq
  simp only [addWord_toNat]
  omega

theorem multWord_assoc (x y z : Word) : multWord (multWord x y) z = multWord x (multWord y z) := by
  apply BitVec.eq_of_toNat_eq
  simp only [multWord_toNat, Nat.mod_mul_mod, Nat.mul_mod_mod, Nat.mul_assoc]

theorem multWord_addWord (x y z : Word) : multWord x (addWord y z) = addWord (multWord x y) (multWord x z) := by
  apply BitVec.eq_of_toNat_eq
  simp only [addWord_toNat, multWord_toNat, Nat.mul_mod_mod, Nat.mul_add, ← Nat.add_mod]

/-- Adding 32767 subtracts 1 from an in-range value that is not 0. -/
theorem addWord_32767_toNat {x : Word} (hx : x.toNat < 32768) (hpos : 0 < x.toNat) :
    (addWord x 32767#16).toNat = x.toNat - 1 := by
  rw [addWord_toNat, BitVec.toNat_ofNat]
  omega

/-- NOT and 1 added negate a word modulo 32768. -/
theorem addWord_notWord_add_one (x : Word) : addWord x (addWord (notWord x) 1#16) = 0#16 := by
  apply BitVec.eq_of_toNat_eq
  simp only [addWord_toNat, notWord_toNat, BitVec.toNat_ofNat]
  omega

/-- De Morgan under the mask of NOT. -/
theorem notWord_andWord (x y : Word) : notWord (andWord x y) = orWord (notWord x) (notWord y) := by
  simp only [notWord, andWord, orWord, BitVec.not_and, BitVec.and_or_distrib_right]

/-- De Morgan under the mask of NOT, which may stand once or twice. -/
theorem notWord_orWord (x y : Word) : notWord (orWord x y) = andWord (notWord x) (notWord y) := by
  simp only [notWord, andWord, orWord, BitVec.not_or]
  ac_rfl

/-- A formula that commutes lets the two values be swapped, under a bad destination too. -/
theorem State.binaryToReg_comm {s : State} {f : Word → Word → Word} (hf : ∀ v w, f v w = f w v) (a : Dst) {b c : Src}
    {vb vc : Word} (hb : s.val b = .ok vb) (hc : s.val c = .ok vc) :
    s.binaryToReg f a b c = s.binaryToReg f a c b := by
  cases a with
  | reg d =>
    rw [State.binaryToReg_eq_ok.mpr ⟨d, vb, vc, rfl, hb, hc, rfl⟩,
      State.binaryToReg_eq_ok.mpr ⟨d, vc, vb, rfl, hc, hb, rfl⟩, hf]
  | bad w =>
    rw [State.binaryToReg_eq_error.mpr (.inl (dst_bad w)), State.binaryToReg_eq_error.mpr (.inl (dst_bad w))]

/-- An instruction whose effect is `binaryToReg f` commutes in its legal value operands when `f` does. -/
theorem exec_comm_of_effect {mk : Dst → Src → Src → Instr} {f : Word → Word → Word}
    (heff : ∀ s a b c, effect s (mk a b c) = s.binaryToReg f a b c) (hf : ∀ v w, f v w = f w v) (s : State) (a : Dst)
    {b c : Src} (hb : b.legal = true) (hc : c.legal = true) : exec (mk a b c) s = exec (mk a c b) s := by
  obtain ⟨vb, hvb⟩ := s.val_of_legal hb
  obtain ⟨vc, hvc⟩ := s.val_of_legal hc
  rw [exec_eq_finish, exec_eq_finish, heff, heff, State.binaryToReg_comm hf a hvb hvc]

/-- Settles O39: the instructions commute because their formulas do; the rest is the algebra of the formulas. -/
theorem arithmeticLaws : Obligations.ArithmeticLaws := by
  refine ⟨fun s a b c hb hc => ?_, fun x y z => ?_, fun x y hx _ => ?_⟩
  · exact ⟨exec_comm_of_effect (mk := .add) (fun _ _ _ _ => rfl) addWord_comm s a hb hc,
      exec_comm_of_effect (mk := .mult) (fun _ _ _ _ => rfl) multWord_comm s a hb hc,
      exec_comm_of_effect (mk := .and) (fun _ _ _ _ => rfl) BitVec.and_comm s a hb hc,
      exec_comm_of_effect (mk := .or) (fun _ _ _ _ => rfl) BitVec.or_comm s a hb hc⟩
  · exact ⟨addWord_assoc x y z, multWord_assoc x y z, multWord_addWord x y z, BitVec.and_assoc x y z,
      BitVec.or_assoc x y z, BitVec.and_self, BitVec.or_self⟩
  · exact ⟨addWord_32767_toNat hx, addWord_notWord_add_one x, notWord_andWord x y, notWord_orWord x y⟩

/-! ## NOT twice -/

theorem onlyRegAndPc.trans {d : Reg} {s t u : State} (hst : onlyRegAndPc d s t) (htu : onlyRegAndPc d t u) :
    onlyRegAndPc d s u := by
  obtain ⟨ht, hregt⟩ := hst
  obtain ⟨hu, hregu⟩ := htu
  refine ⟨?_, fun r hr => (hregu r hr).trans (hregt r hr)⟩
  rw [ht] at hu
  exact hu

/-- NOT undoes itself on an in-range value. -/
theorem notWord_notWord {x : Word} (hx : x.toNat < 32768) : notWord (notWord x) = x := by
  apply BitVec.eq_of_toNat_eq
  rw [notWord_toNat, notWord_toNat]
  omega

/-- NOT of a register onto itself. -/
theorem exec_not_reg_self (s : State) (d : Reg) :
    exec (.not (.reg d) (.reg d)) s = .next ((s.setReg d (notWord (s.reg d))).advance 3) :=
  exec_of_effect_ok (State.unaryToReg_eq_ok.mpr ⟨d, s.reg d, rfl, rfl, rfl⟩)

/-- Settles O40: two executions in a row write `notWord (notWord (s.reg d))`. -/
theorem notTwiceIsIdentity : Obligations.NotTwiceIsIdentity := by
  intro s d hd
  refine ⟨_, _, exec_not_reg_self s d, exec_not_reg_self _ d, ?_, ?_,
    (onlyRegAndPc_setReg_advance s d _ 3).trans (onlyRegAndPc_setReg_advance _ d _ 3)⟩
  · simp only [State.advance_reg, State.reg_setReg_same, notWord_notWord hd]
  · simp only [State.advance_pc, State.setReg_pc, BitVec.add_assoc]
    rfl

end Sys2Proof.Machine
end

section
/-! The memory access family (`45_memory_access.md`): RMEM and WMEM, one outcome at a time. -/

namespace Sys2Proof.Machine

/-! ## RMEM -/

/-- RMEM decodes its operands before it looks at memory, and raises their Fault (R62, R99). -/
theorem exec_rmem_of_operands_error {s : State} {a : Dst} {b : Src} {r : Raise} (h : s.operandsDV a b = .error r) :
    exec (.rmem a b) s = .next (s.faultedWith r.cause r.info) := by
  apply exec_of_effect_error
  simp only [effect, h, bind_error]

/-- RMEM with good operands and an address inside memory copies the cell into its register (R90). -/
theorem exec_rmem_of_lt {s : State} {b : Src} {vb : Word} (d : Reg) (hb : s.val b = .ok vb) (hlt : vb.toNat < 32768) :
    exec (.rmem (.reg d) b) s = .next ((s.setReg d (readCell s.mem vb.toNat)).advance 3) := by
  have hops : s.operandsDV (.reg d) b = .ok (d, vb) := State.operandsDV_eq_ok.mpr ⟨rfl, hb⟩
  have hread : s.memRead vb = .ok (readCell s.mem vb.toNat) := State.memRead_eq_ok.mpr ⟨hlt, rfl⟩
  apply exec_of_effect_ok
  simp only [effect, hops, bind_ok, hread, pure, Except.pure]

/-- RMEM with good operands and an address outside memory is `MEM_ADDRESS_OUT_OF_RANGE` (R90; decision D3). -/
theorem exec_rmem_of_ge {s : State} {b : Src} {vb : Word} (d : Reg) (hb : s.val b = .ok vb) (hge : 32768 ≤ vb.toNat) :
    exec (.rmem (.reg d) b) s = .next (s.faultedWith .memAddressOutOfRange vb) := by
  have hops : s.operandsDV (.reg d) b = .ok (d, vb) := State.operandsDV_eq_ok.mpr ⟨rfl, hb⟩
  have hread : s.memRead vb = .error { cause := .memAddressOutOfRange, info := vb } :=
    State.memRead_eq_error.mpr ⟨hge, rfl⟩
  apply exec_of_effect_error (r := { cause := .memAddressOutOfRange, info := vb })
  simp only [effect, hops, bind_ok, hread, bind_error]

/-- Settles O41: RMEM with a bad destination, with a bad value, and with an address on either side of the end of
memory. -/
theorem rmemRule : Obligations.RmemRule := by
  refine ⟨fun _ _ => rfl, fun s w b => ?_, fun s d w => ?_, fun s d b vb hb => ⟨fun hlt => ?_, exec_rmem_of_ge d hb⟩⟩
  · exact exec_rmem_of_operands_error (State.operandsDV_eq_error.mpr (.inl (dst_bad w)))
  · exact exec_rmem_of_operands_error (State.operandsDV_eq_error.mpr (.inr ⟨⟨d, rfl⟩, s.val_bad w⟩))
  · refine ⟨_, exec_rmem_of_lt d hb hlt, ?_, rfl, onlyRegAndPc_setReg_advance s d _ 3⟩
    rw [State.advance_reg, State.reg_setReg_same]

/-! ## WMEM -/

/-- A cell write and an advance leave everything but the two bytes of that cell and `pc` (R38, R63). -/
theorem onlyCellAndPc_writeCell_advance (s : State) (a : Nat) (w : Word) (n : Nat) :
    onlyCellAndPc a s (State.advance { s with mem := writeCell s.mem a w } n) :=
  ⟨rfl, fun _ hlow hhigh => readByte_writeCell_other s.mem a w hlow hhigh⟩

/-- WMEM with good operands and an address outside memory is `MEM_ADDRESS_OUT_OF_RANGE` (R91; decision D3). -/
theorem exec_wmem_of_ge {s : State} {a b : Src} {va vb : Word} (ha : s.val a = .ok va) (hb : s.val b = .ok vb)
    (hge : 32768 ≤ va.toNat) : exec (.wmem a b) s = .next (s.faultedWith .memAddressOutOfRange va) := by
  have hops : s.operandsVV a b = .ok (va, vb) := State.operandsVV_eq_ok.mpr ⟨ha, hb⟩
  have hwrite : s.memWrite va vb = .error { cause := .memAddressOutOfRange, info := va } :=
    State.memWrite_eq_error.mpr ⟨hge, rfl⟩
  apply exec_of_effect_error (r := { cause := .memAddressOutOfRange, info := va })
  simp only [effect, hops, bind_ok, hwrite, bind_error]

/-- Settles O42: WMEM with bad operands, and with an address on either side of the end of memory; inside memory its
cell reads back as written, and no other byte changes. -/
theorem wmemRule : Obligations.WmemRule := by
  refine ⟨badOperandsVV_of_effect (fun _ _ => rfl) fun s a b r h => ?_,
    fun s a b va vb hwf ha hb => ⟨fun hlt => ?_, exec_wmem_of_ge ha hb⟩⟩
  · simp only [effect, h, bind_error]
  · exact ⟨_, exec_wmem_of_lt ha hb hlt, readCell_writeCell_same s.mem va.toNat vb hwf hlt,
      fun j hj => readCell_writeCell_other s.mem vb hj, rfl, onlyCellAndPc_writeCell_advance s va.toNat vb 3⟩

end Sys2Proof.Machine
end

section
/-! The input and output family (`46_io.md`): OUT and IN, from their outcomes one at a time. -/

namespace Sys2Proof.Machine

/-! ## OUT -/

/-- Settles O44: OUT with a bad operand, with the sink ready, and with the sink not ready. -/
theorem outRule : Obligations.OutRule := by
  refine ⟨badOperandV_of_effect (fun _ => rfl) fun s a r h => ?_, fun s a va ha => ⟨fun hready => ?_, fun hwait => ?_⟩⟩
  · simp only [effect, h, bind_error]
  · refine ⟨(s.emit (lowByte va)).advance 2, lowByte va, ?_, rfl, lowByte_toNat va, rfl, rfl⟩
    rw [exec_out_of_val ha, if_pos hready]
  · rw [exec_out_of_val ha, hwait, if_neg Bool.false_ne_true]

/-! ## IN -/

/-- A bad destination of IN is its Fault, whatever the input (R61, R93, R99). -/
theorem exec_in_of_bad (s : State) (w : Word) : exec (.in_ (.bad w)) s = .next (s.faultedWith .badDestination w) := by
  apply exec_of_effect_error (r := { cause := .badDestination, info := w })
  simp only [effect, dst_bad, bind_error]

/-- Settles O45: IN with a bad destination, with a character available, with none yet, and at the end of the stream. -/
theorem inRule : Obligations.InRule := by
  refine ⟨⟨fun _ => rfl, exec_in_of_bad⟩,
    fun s d => ⟨fun b bs hinp => ?_, exec_in_of_wait d, exec_in_of_end d⟩⟩
  refine ⟨_, exec_in_of_char d hinp, ?_, rfl, rfl, rfl, fun r hr => State.reg_setReg_other _ d _ hr⟩
  rw [State.advance_reg, State.reg_setReg_same, BitVec.toNat_setWidth_of_le (by decide)]

end Sys2Proof.Machine
end

section
/-! The exception family (`60_exceptions.md`): the cause of a Fault, and what the final states are left by. -/

namespace Sys2Proof.Machine

/-! ## The rows of R96 -/

/-- The instructions with a destination are those that can raise `BAD_DESTINATION` (R96). -/
theorem badDestination_mem_mayRaise_iff {i : Instr} : .badDestination ∈ mayRaise i ↔ ∃ a, dstOperand i = some a := by
  cases i <;> simp [mayRaise, dstOperand]

/-- The instructions with a value operand are those that can raise `BAD_VALUE_OPERAND` (R96). -/
theorem badValueOperand_mem_mayRaise_iff {i : Instr} : .badValueOperand ∈ mayRaise i ↔ srcOperands i ≠ [] := by
  cases i <;> simp [mayRaise, srcOperands]

/-- No row holds the cause that stands for no Fault (R95). -/
theorem none_not_mem_mayRaise (i : Instr) : .none ∉ mayRaise i := by
  cases i <;> simp [mayRaise]

/-! ## The cause of a Fault -/

/-- What an instruction raises is in its row of R96. -/
theorem Raised.cause_mem_mayRaise {s : State} {i : Instr} {r : Raise} (h : Raised s i r) : r.cause ∈ mayRaise i := by
  cases h with
  | badDestination w h => exact badDestination_mem_mayRaise_iff.mpr ⟨_, h⟩
  | badValueOperand w h => exact badValueOperand_mem_mayRaise_iff.mpr (List.ne_nil_of_mem (firstBadValue_mem h))
  | stackUnderflow _ _ hi => rcases hi with ⟨a, rfl⟩ | rfl <;> simp [mayRaise]
  | stackOverflow _ _ hi => rcases hi with ⟨a, rfl | rfl⟩ <;> simp [mayRaise]
  | divideByZero _ hi =>
    obtain ⟨a, b, c, rfl, -⟩ := hi
    simp [mayRaise]
  | memAddressOutOfRange w _ _ hi => rcases hi with ⟨a, -, ⟨d, rfl⟩ | ⟨b, rfl⟩⟩ <;> simp [mayRaise]
  | inputEnd _ _ _ hi =>
    obtain ⟨a, rfl⟩ := hi
    simp [mayRaise]

/-- An instruction with a bad operand word raises the Fault of an operand: its own need every operand legal (R99,
decision D10). -/
theorem Raised.cause_of_not_legal {s : State} {i : Instr} {r : Raise} (h : Raised s i r) (hl : i.legal = false) :
    r.cause = .badDestination ∨ r.cause = .badValueOperand := by
  cases h with
  | badDestination w h => exact .inl rfl
  | badValueOperand w h => exact .inr rfl
  | stackUnderflow hl' | stackOverflow hl' | divideByZero hl' | memAddressOutOfRange w hl' | inputEnd hl' =>
    simp [hl] at hl'

/-- The Fault of a step has a cause (R95, R97). -/
theorem StepRaises.cause_ne_none {s : State} {r : Raise} (h : StepRaises s r) : r.cause ≠ .none := by
  rcases h with hf | ⟨i, -, hraise⟩
  · rcases State.fetchInstr_eq_error.mp hf with ⟨-, rfl⟩ | ⟨-, -, rfl⟩ | ⟨f, -, -, -, rfl⟩ <;> simp
  · exact fun hnone => none_not_mem_mayRaise i (hnone ▸ hraise.cause_mem_mayRaise)

/-- Settles O47: only a Fault ends a step of a running engine in `Faulted`, and it has a cause. -/
theorem faultsArePrecise : Obligations.FaultsArePrecise := by
  intro s t hr h hrun
  rcases step_outcome h with ⟨hne, -⟩ | ⟨-, r, hraise, rfl⟩ | ⟨-, i, -, hc⟩
  · exact absurd hr hne
  · exact ⟨r.cause, r.info, hraise.cause_ne_none, s.takeFault_eq r⟩
  · exact absurd hrun (hc.run_ne_faulted hr)

/-- Settles O48: a completed instruction is legal and does not end in `Faulted`, and a Fault is one of `Raised`. -/
theorem faultsOfEachInstruction : Obligations.FaultsOfEachInstruction := by
  intro i s t hr h
  rcases exec_cases h with hc | ⟨⟨cause, info⟩, hraise, rfl⟩
  · exact ⟨fun hrun => absurd hrun (hc.run_ne_faulted hr), fun hl => absurd hc.legal (by simp [hl])⟩
  · refine ⟨fun _ => ⟨cause, info, hraise.cause_mem_mayRaise, rfl⟩, fun hl => ⟨info, ?_⟩⟩
    rcases hraise.cause_of_not_legal hl with rfl | rfl
    · exact .inl rfl
    · exact .inr rfl

/-! ## The final states -/

/-- A state that its own step answers is the outcome of any number of steps. -/
theorem run_eq_next_self {M : Host.Core} {s : M.State} (h : M.step s = .next s) (k : Nat) : M.run k s = .next s := by
  induction k with
  | zero => rfl
  | succ k ih =>
    rw [Host.Core.run, h]
    exact ih

/-- Settles O49: no step leaves a final state, and an event that is no reset moves only the input and the sink. -/
theorem onlyResetLeavesAFinalState : Obligations.OnlyResetLeavesAFinalState := by
  refine ⟨fun s k hne => run_eq_next_self (M := core) (step_of_not_running hne) k, fun e s t h hchange => ?_⟩
  by_contra hreset
  obtain ⟨ht, -⟩ := envStep_input_only (not_exists.mp hreset) h
  have hrun : t.run = s.run := by rw [ht]
  have hfault : t.fault = s.fault := by rw [ht]
  exact hchange.elim (· hrun) (· hfault)

end Sys2Proof.Machine
end
